-- ==== Sys2Proof/Word.lean ====
section
/-! DEFINITION. The two word sizes of the machine (00_scope.md R6, 10_state.md R10, R12, R13): bytes and 16-bit words, all unsigned. -/

namespace Sys2Proof

/-- An 8-bit unsigned value: a V register, a timer, a memory byte (R10, R15, R18). -/
abbrev Byte := BitVec 8

/-- A 16-bit unsigned value: `pc`, `I`, a stack entry, an instruction word (R12, R13, R14, R60). -/
abbrev Word := BitVec 16

/-- The number of a V register, 0 to 15 (R10). -/
abbrev Reg := Fin 16

/-- A logical key, 0x0 to 0xF (R16): nothing outside this range can be reported. -/
abbrev Key := Fin 16

/-- `VF`, the V register that doubles as the flag (R11). -/
def Reg.vf : Reg := 15

end Sys2Proof
end

