-- ==== Sys2Proof/Syntax.lean ====
section
/-! DEFINITION. The instructions: one constructor per row of spec/opcode_table.json (30_encoding.md R67, R68). -/

namespace Sys2Proof

/-- The 34 instructions of R67, in the order of its table, and the fallback `NOP` of R68. The pattern that
begins a docstring is the instruction's primary name (R69); operands are the fields of R61.
`seReg`, `sneReg` carry the low nibble, which the decoder ignores (R66), and `nop` carries the unrecognised word,
so that an instruction and its word determine each other (log 9). -/
inductive Instr where
  /-- `00E0`, clear the framebuffer (R140). -/
  | cls
  /-- `00EE`, return (R81). -/
  | ret
  /-- `1NNN`, jump (R82). -/
  | jp (nnn : BitVec 12)
  /-- `2NNN`, call (R83). -/
  | call (nnn : BitVec 12)
  /-- `3XNN`, skip if `V[X]` = NN (R84). -/
  | seImm (x : Reg) (nn : Byte)
  /-- `4XNN`, skip if `V[X]` ≠ NN (R85). -/
  | sneImm (x : Reg) (nn : Byte)
  /-- `5XY0`, skip if `V[X]` = `V[Y]` (R86); `n` is the ignored low nibble (R66). -/
  | seReg (x y : Reg) (n : BitVec 4)
  /-- `6XNN`, load immediate (R100). -/
  | ldImm (x : Reg) (nn : Byte)
  /-- `7XNN`, add immediate, no flag (R101). -/
  | addImm (x : Reg) (nn : Byte)
  /-- `8XY0`, copy (R102). -/
  | ldReg (x y : Reg)
  /-- `8XY1`, or (R103). -/
  | orReg (x y : Reg)
  /-- `8XY2`, and (R104). -/
  | andReg (x y : Reg)
  /-- `8XY3`, exclusive or (R105). -/
  | xorReg (x y : Reg)
  /-- `8XY4`, add with carry flag (R106). -/
  | addReg (x y : Reg)
  /-- `8XY5`, subtract (R107). -/
  | subReg (x y : Reg)
  /-- `8XY6`, shift right (R108). -/
  | shr (x y : Reg)
  /-- `8XY7`, reverse subtract (R109). -/
  | subn (x y : Reg)
  /-- `8XYE`, shift left (R110). -/
  | shl (x y : Reg)
  /-- `9XY0`, skip if `V[X]` ≠ `V[Y]` (R87); `n` is the ignored low nibble (R66). -/
  | sneReg (x y : Reg) (n : BitVec 4)
  /-- `ANNN`, load index (R120). -/
  | ldI (nnn : BitVec 12)
  /-- `BNNN`, jump with offset `V0` (R88). -/
  | jpV0 (nnn : BitVec 12)
  /-- `CXNN`, random and mask (R111). -/
  | rnd (x : Reg) (nn : Byte)
  /-- `DXYN`, draw sprite (R141). -/
  | drw (x y : Reg) (n : BitVec 4)
  /-- `EX9E`, skip if key down (R150). -/
  | skp (x : Reg)
  /-- `EXA1`, skip if key up (R151). -/
  | sknp (x : Reg)
  /-- `FX07`, read delay timer (R153). -/
  | ldVxDt (x : Reg)
  /-- `FX0A`, wait for a key (R152). -/
  | ldVxK (x : Reg)
  /-- `FX15`, set delay timer (R154). -/
  | ldDtVx (x : Reg)
  /-- `FX18`, set sound timer (R155). -/
  | ldStVx (x : Reg)
  /-- `FX1E`, add to index (R121). -/
  | addI (x : Reg)
  /-- `FX29`, point at font glyph (R122). -/
  | ldF (x : Reg)
  /-- `FX33`, store decimal digits (R123). -/
  | ldB (x : Reg)
  /-- `FX55`, store registers (R124). -/
  | stRegs (x : Reg)
  /-- `FX65`, load registers (R125). -/
  | ldRegs (x : Reg)
  /-- `NOP`: an unrecognised word `w` (R68). -/
  | nop (w : Word)
  deriving DecidableEq, Repr

end Sys2Proof
end

