-- ==== Sys2Proof/WellFormed.lean ====
section
/-! DEFINITION. Which terms of `Instr` are instructions of the machine: every operand form of R62 and R63, and `nop` only for an unrecognised word (30_encoding.md R68). -/

namespace Sys2Proof

/-- The unrecognised words, family by family, as the table of R68 lists them. -/
abbrev Word.unrecognised (w : Word) : Prop :=
  (w &&& 0xF000 = 0x0000 ∧ w ≠ 0x00E0 ∧ w ≠ 0x00EE) ∨
  (w &&& 0xF000 = 0x8000 ∧ w &&& 0x000F ∈ [0x8#16, 0x9#16, 0xA#16, 0xB#16, 0xC#16, 0xD#16, 0xF#16]) ∨
  (w &&& 0xF000 = 0xE000 ∧ w &&& 0x00FF ∉ [0x9E#16, 0xA1#16]) ∨
  (w &&& 0xF000 = 0xF000 ∧
    w &&& 0x00FF ∉ [0x07#16, 0x0A#16, 0x15#16, 0x18#16, 0x1E#16, 0x29#16, 0x33#16, 0x55#16, 0x65#16])

/-- Well-formed instructions. Register numbers and immediates are bounded by their types, so every
operand of the 34 instructions is legal (R63); a `nop` must carry a word no row of R67 matches. -/
def Instr.wellFormed : Instr → Bool
  | .cls | .ret | .jp _ | .call _ => true
  | .seImm _ _ | .sneImm _ _ | .seReg _ _ _ | .ldImm _ _ | .addImm _ _ => true
  | .ldReg _ _ | .orReg _ _ | .andReg _ _ | .xorReg _ _ | .addReg _ _ => true
  | .subReg _ _ | .shr _ _ | .subn _ _ | .shl _ _ | .sneReg _ _ _ => true
  | .ldI _ | .jpV0 _ | .rnd _ _ | .drw _ _ _ | .skp _ | .sknp _ => true
  | .ldVxDt _ | .ldVxK _ | .ldDtVx _ | .ldStVx _ | .addI _ | .ldF _ => true
  | .ldB _ | .stRegs _ | .ldRegs _ => true
  | .nop w => decide (Word.unrecognised w)

end Sys2Proof
end

