-- ==== Sys2Proof/Config.lean ====
section
/-! DEFINITION. What an implementation fixes: the parameters of 00_scope.md R5 and the free value of R184. -/

namespace Sys2Proof.Config

/-- `MEM_SIZE`: bytes of memory (R5, R40). -/
def memSize : Nat := 4096

/-- `PROG_BASE`: load address and reset `pc` (R5, R41). -/
def progBase : Nat := 0x200

/-- `ROM_MAX`: the largest program in bytes (R5, R201). -/
def romMax : Nat := 3584

/-- `FB_W`: framebuffer columns (R5, R17). -/
def fbWidth : Nat := 64

/-- `FB_H`: framebuffer rows (R5, R17). -/
def fbHeight : Nat := 32

/-- `TICK_HZ`: timer decrement rate (R5, R179). -/
def tickHz : ℚ := 60

/-- `GLYPH_BYTES`: bytes of one font glyph (R5, R42). -/
def glyphBytes : Nat := 5

/-- `FONT_GLYPHS · GLYPH_BYTES`: bytes of the font (R5, R42). -/
def fontBytes : Nat := 80

/-- The parameters the source leaves open, taken as an argument with a default (R5; D1 to D4).
DESIGN CHOICE (log 1): they stand in the state as a constant field, so that a statement about every
state holds for every value of them. Safe. -/
structure Params where
  /-- `STACK_DEPTH`, call-stack entries (D3). -/
  stackDepth : Nat
  /-- `CYCLE_HZ`, the instruction rate, a positive rational (D4). -/
  cycleHz : ℚ
  /-- `FONT_BASE`, the address of glyph 0 (D1). -/
  fontBase : Nat
  /-- `FONT`, the 80 glyph bytes (D2). -/
  font : List Byte
  deriving DecidableEq, Repr

/-- The customary hexadecimal font of R42, glyph 0 first, row 0 first.
PRESUMED (log 13; the spec's D2, G1): the source gives no byte. Unsafe. -/
def defaultFont : List Byte :=
  [0xF0, 0x90, 0x90, 0x90, 0xF0,  0x20, 0x60, 0x20, 0x20, 0x70,
   0xF0, 0x10, 0xF0, 0x80, 0xF0,  0xF0, 0x10, 0xF0, 0x10, 0xF0] ++
  [0x90, 0x90, 0xF0, 0x10, 0x10,  0xF0, 0x80, 0xF0, 0x10, 0xF0,
   0xF0, 0x80, 0xF0, 0x90, 0xF0,  0xF0, 0x10, 0x20, 0x40, 0x40] ++
  [0xF0, 0x90, 0xF0, 0x90, 0xF0,  0xF0, 0x90, 0xF0, 0x10, 0xF0,
   0xF0, 0x90, 0xF0, 0x90, 0x90,  0xE0, 0x90, 0xE0, 0x90, 0xE0] ++
  [0xF0, 0x80, 0x80, 0x80, 0xF0,  0xE0, 0x90, 0x90, 0x90, 0xE0,
   0xF0, 0x80, 0xF0, 0x80, 0xF0,  0xF0, 0x80, 0xF0, 0x80, 0x80]

/-- The defaults of R5. DESIGN CHOICE (the spec's D1, D3, D4; logs 11, 12, 14). Unsafe for a claim that rests on a value. -/
def Params.default : Params where
  stackDepth := 16
  cycleHz := 700
  fontBase := 0x050
  font := defaultFont

/-- What R5 asks of the parameters: the font fits below 0x200, it has 80 bytes, the rate is positive. -/
abbrev Params.valid (p : Params) : Prop :=
  p.fontBase ≤ 0x1B0 ∧ p.font.length = fontBytes ∧ 0 < p.cycleHz

/-- `rnd8()`: the byte `CXNN` draws, a free value under no law (R111, R184, D16; log 3). It is applied to
the number of bytes drawn before, so that every draw is fresh; nothing in Lean can prove a value of it. Safe. -/
opaque randomByte : Nat → Byte

end Sys2Proof.Config
end

