-- ==== Sys2Proof/Machine/State.lean ====
section
/-! DEFINITION. The state of the machine as plain data (10_state.md R10 to R27), why a step can stop, and reset. -/

namespace Sys2Proof.Machine

open Sys2Proof.Config

/-- Memory as the bytes that differ from the reset content, addresses strictly rising (log 5). -/
abbrev Memory := List Host.Cell

/-- The framebuffer `FB[y][x]`, `bool[32][64]`, row-major, `true` = on (R17). -/
abbrev Framebuffer := Vector (Vector Bool 64) 32

/-- The cause held in the latch `fault` (R21, R170). -/
inductive FaultCause where
  /-- Code 0: no fault. -/
  | none
  /-- Code 1: `00EE` with an empty stack. -/
  | stackUnderflow
  /-- Code 2: `2NNN` with a full stack. -/
  | stackOverflow
  /-- Code 3: an access reaches an address above 0xFFF. -/
  | memoryOutOfRange
  deriving DecidableEq, Repr

/-- One move of an agent (R189): the core's cycle, the timer unit's tick, the pacing unit's advance, and
the host events of R175 that change state. -/
inductive Move where
  /-- One cycle of the core (R80). -/
  | cycle
  /-- One tick of the timer unit (R179). -/
  | tick
  /-- One advance of the pacing unit by an elapsed time in milliseconds (R180). -/
  | advance (elapsedMillis : ℚ)
  /-- The host reports a key down (R176). -/
  | keyDown (k : Key)
  /-- The host reports a key up (R177). -/
  | keyUp (k : Key)
  /-- The host toggles the pause (R178). -/
  | togglePause
  /-- The host resets the machine by loading a program (R200, R201). -/
  | load (program : List Byte)
  deriving DecidableEq, Repr

/-- The state: the items of R10 to R22, and three fields of the model's own (`params`, `draws`, `schedule`). -/
structure State where
  /-- The parameters of R5 (log 1); no step writes them. -/
  params : Params
  /-- `V[0..15]` (R10). -/
  regs : Vector Byte 16
  /-- `I` (R12). -/
  index : Word
  /-- `pc` (R13). -/
  pc : Word
  /-- `S[0 .. STACK_DEPTH-1]` (R14). -/
  stack : List Word
  /-- `sp`, the number of stack entries in use (R14). -/
  sp : Nat
  /-- `DT` (R15). -/
  dt : Byte
  /-- `ST` (R15). -/
  st : Byte
  /-- `K[0..15]`, `true` = down (R16). -/
  keys : Vector Bool 16
  /-- `lastKey` (R16). -/
  lastKey : Key
  /-- `FB` (R17). -/
  fb : Framebuffer
  /-- `M` (R18). -/
  mem : Memory
  /-- `paused` (R20). -/
  paused : Bool
  /-- `fault` (R21). -/
  fault : FaultCause
  /-- `faultInfo` (R21). -/
  faultInfo : Word
  /-- `tickAcc`, in tick periods (R22). -/
  tickAcc : ℚ
  /-- `cycleAcc`, in cycle periods (R22). -/
  cycleAcc : ℚ
  /-- How many random bytes have been drawn (R184; log 3). -/
  draws : Nat
  /-- The moves that come before the core's next own cycle, first one first (R175, R181; log 2). -/
  schedule : List Move
  deriving DecidableEq, Repr

/-- Why the machine stops. -/
inductive Fault where
  /-- Raised by `step` alone: nothing is scheduled, so it is the core's turn, and the fault latch is set. The
  spec enables no transition then (R80, R171, R172); the cause and the information are the latch's. Safe: the
  machine does not go on (log 6). -/
  | halted (cause : FaultCause) (info : Word)
  deriving DecidableEq, Repr

/-- Why the model gives no meaning. -/
inductive Refusal where
  /-- Raised by an arm of `exec` whose instruction has no meaning yet; no arm does. Safe. -/
  | notModelled (mnemonic : String)
  /-- Raised by a scheduled `advance` with a negative elapsed time, which R180 and U20 say the model should
  refuse. Safe (log 8). -/
  | negativeElapsed
  deriving DecidableEq, Repr

/-- The state right after a successful Reset/Load of an empty program, for given parameters (R24, R200).
`pc` and the font are the source's; the other values the spec decides (D5; log 15). `stack` and `lastKey` are
unspecified and unobservable: DESIGN CHOICE 0 (log 4). Unsafe. -/
def State.resetWith (p : Params) : State where
  params := p
  regs := Vector.replicate 16 0
  index := 0
  pc := 0x200
  stack := List.replicate p.stackDepth 0
  sp := 0
  dt := 0
  st := 0
  keys := Vector.replicate 16 false
  lastKey := 0
  fb := Vector.replicate 32 (Vector.replicate 64 false)
  mem := []
  paused := false
  fault := .none
  faultInfo := 0
  tickAcc := 0
  cycleAcc := 0
  draws := 0
  schedule := []

/-- The machine right after reset, with the default parameters of R5. -/
def State.reset : State := State.resetWith Params.default

end Sys2Proof.Machine
end

