-- ==== Sys2Proof/Machine/Ops.lean ====
section
/-! DEFINITION. The named operations over memory and registers, and fault entry (20_memory.md R46, R47; 60_exceptions.md R171). -/

namespace Sys2Proof.Machine

open Sys2Proof.Config

/-- The three outcomes of this machine. -/
abbrev Result := Host.Outcome State Fault Refusal

/-! Memory. -/

/-- What an address that memory does not list reads as: the reset content, the font at FONT_BASE and 0x00
elsewhere (R24, R41, R42; log 5). -/
def Memory.unlisted (p : Params) (a : Nat) : Byte :=
  if p.fontBase ≤ a ∧ a < p.fontBase + fontBytes then p.font.getD (a - p.fontBase) 0 else 0

/-- The byte at address `a` (`M[a]` of R7, without any check). -/
def Memory.read (p : Params) (m : Memory) (a : Nat) : Byte :=
  match m with
  | [] => Memory.unlisted p a
  | (k, b) :: rest => if k = a then b else Memory.read p rest a

/-- `M[a] <- v`, without any check: the entry is put in order, and left out when it is the reset content. -/
def Memory.write (p : Params) (m : Memory) (a : Nat) (v : Byte) : Memory :=
  match m with
  | [] => if v = Memory.unlisted p a then [] else [(a, v)]
  | (k, b) :: rest =>
    if a < k then (if v = Memory.unlisted p a then (k, b) :: rest else (a, v) :: (k, b) :: rest)
    else if a = k then (if v = Memory.unlisted p a then rest else (a, v) :: rest)
    else (k, b) :: Memory.write p rest a v

/-- Bytes stored at ascending addresses from `a` (R44). -/
def Memory.writeBytes (p : Params) (m : Memory) (a : Nat) : List Byte → Memory
  | [] => m
  | b :: bs => Memory.writeBytes p (Memory.write p m a b) (a + 1) bs

/-- The canonical form: addresses strictly rising and inside the 4096 bytes of R40, no entry equal to what
its address reads as unlisted. -/
abbrev Memory.wf (p : Params) (m : Memory) : Prop :=
  m.Pairwise (fun c d => c.1 < d.1) ∧ ∀ c ∈ m, c.1 < memSize ∧ c.2 ≠ Memory.unlisted p c.1

/-- `M[a]` in a state. -/
def State.byteAt (s : State) (a : Nat) : Byte := Memory.read s.params s.mem a

/-- The `k` bytes at ascending addresses from `a` (R44). -/
def State.bytesAt (s : State) (a : Nat) : Nat → List Byte
  | 0 => []
  | k + 1 => s.byteAt a :: s.bytesAt (a + 1) k

/-- Bytes stored at ascending addresses from `a` in a state (R44). -/
def State.storeBytes (s : State) (a : Nat) (bs : List Byte) : State :=
  { s with mem := Memory.writeBytes s.params s.mem a bs }

/-! Registers. -/

/-- Read `V[x]` (R10). -/
def State.v (s : State) (x : Reg) : Byte := s.regs.get x

/-- `V[x] <- b` (R10). -/
def State.setV (s : State) (x : Reg) (b : Byte) : State :=
  { s with regs := s.regs.set x.val b x.isLt }

/-- The ordering law of R11: the result first, the flag into `VF` last, so that the flag wins when x = 15. -/
def State.setVThenFlag (s : State) (x : Reg) (result flag : Byte) : State :=
  (s.setV x result).setV Reg.vf flag

/-- `V[k] <- b`, `V[k+1] <- b'`, ... for the bytes of a list, ascending (R125). -/
def loadRegsFrom (regs : Vector Byte 16) (k : Nat) : List Byte → Vector Byte 16
  | [] => regs
  | b :: bs => loadRegsFrom (regs.setIfInBounds k b) (k + 1) bs

/-- `S[j]` (R14). -/
def State.stackAt (s : State) (j : Nat) : Word := s.stack.getD j 0

/-- `S[sp] <- w; sp <- sp + 1` (R83). -/
def State.push (s : State) (w : Word) : State :=
  { s with stack := s.stack.set s.sp w, sp := s.sp + 1 }

/-- Is key `k` down? A number above 15 names no key, and no such key is ever down (R16, R150; the spec's D12, log 22). -/
def State.keyIsDown (s : State) (k : Nat) : Bool := s.keys.toList.getD k false

/-- `anyKey` of R7. -/
def State.anyKey (s : State) : Bool := s.keys.toList.any id

/-! Fault entry (R171). -/

/-- `raise F(info)` in a cycle that began at `pc0`: `pc` is `pc0` again, the two latches are set, nothing else
changes. An operation raises before it writes, so there is no other write to undo (R171; the spec's D6, D8, log 16). -/
def raiseAt (pc0 : Word) (cause : FaultCause) (info : Word) (s : State) : Result :=
  .next { s with pc := pc0, fault := cause, faultInfo := info }

/-- `pc0`, the address of the executing instruction: fetch has advanced `pc` by 2 (R80). -/
def State.pc0 (s : State) : Word := s.pc - 2

/-- `raise F(info)` from the execute part of a cycle (R80, R171). -/
def raise (cause : FaultCause) (info : Word) (s : State) : Result :=
  raiseAt s.pc0 cause info s

/-! The range check (R46, R47). -/

/-- Does an access to the `k` bytes from `a` reach an address above 0xFFF? An access of no bytes does not (R47). -/
abbrev outOfRange (a k : Nat) : Prop := 1 ≤ k ∧ 0xFFF < a + k - 1

/-- `faultInfo` of a range fault: the lowest address of the access above 0xFFF (R47, R170). -/
def rangeInfo (a : Nat) : Word := BitVec.ofNat 16 (max a 0x1000)

/-- Check an access of the executing instruction whole, then go on (R47). -/
def checked (a k : Nat) (s : State) (go : State) : Result :=
  if outOfRange a k then raise .memoryOutOfRange (rangeInfo a) s else .next go

/-! Random byte (R111, R184). -/

/-- `rnd8()`: a free byte, fresh at each draw (log 3). -/
def State.rnd8 (s : State) : Byte := randomByte s.draws

/-- The state after one draw: the next draw is another one. -/
def State.afterDraw (s : State) : State := { s with draws := s.draws + 1 }

end Sys2Proof.Machine
end

