-- ==== Sys2Proof/Machine/Flags.lean ====
section
/-! DEFINITION. The values written to `VF` as a flag, each from operands read before any write (10_state.md R11, 41_alu.md R112 (b)). -/

namespace Sys2Proof.Machine

/-- A flag value, always 0 or 1 (R11). -/
def flagByte (b : Bool) : Byte := if b then 1 else 0

/-- Carry out of `8XY4`: the sum before truncation exceeds 255 (R106). -/
def carryFlag (a b : Byte) : Byte := flagByte (255 < a.toNat + b.toNat)

/-- Flag of `8XY5` (and, operands exchanged, `8XY7`): strictly greater, so 0 on equality (R107, R109). -/
def greaterFlag (a b : Byte) : Byte := flagByte (b.toNat < a.toNat)

/-- Flag of both shifts: bit 0 of the value before the shift (R108, R110). -/
def lowBitFlag (b : Byte) : Byte := b &&& 1

end Sys2Proof.Machine
end

