-- ==== Sys2Proof/Machine/Alu.lean ====
section
/-! DEFINITION. Register load, arithmetic, logic, shift and random (41_alu.md R100 to R112). -/

namespace Sys2Proof.Machine

/-- `6XNN` (R100). -/
def execLdImm (x : Reg) (nn : Byte) (s : State) : Result := .next (s.setV x nn)

/-- `7XNN` (R101): wraps, no flag. -/
def execAddImm (x : Reg) (nn : Byte) (s : State) : Result := .next (s.setV x (s.v x + nn))

/-- `8XY0` (R102). -/
def execLdReg (x y : Reg) (s : State) : Result := .next (s.setV x (s.v y))

/-- `8XY1` (R103): `VF` is not written. -/
def execOrReg (x y : Reg) (s : State) : Result := .next (s.setV x (s.v x ||| s.v y))

/-- `8XY2` (R104): `VF` is not written. -/
def execAndReg (x y : Reg) (s : State) : Result := .next (s.setV x (s.v x &&& s.v y))

/-- `8XY3` (R105): `VF` is not written. -/
def execXorReg (x y : Reg) (s : State) : Result := .next (s.setV x (s.v x ^^^ s.v y))

/-- `8XY4` (R106). -/
def execAddReg (x y : Reg) (s : State) : Result :=
  .next (s.setVThenFlag x (s.v x + s.v y) (carryFlag (s.v x) (s.v y)))

/-- `8XY5` (R107): the flag is 1 only when `V[X]` is strictly greater. -/
def execSubReg (x y : Reg) (s : State) : Result :=
  .next (s.setVThenFlag x (s.v x - s.v y) (greaterFlag (s.v x) (s.v y)))

/-- `8XY6` (R108): the operand is `V[Y]`. -/
def execShr (x y : Reg) (s : State) : Result :=
  .next (s.setVThenFlag x (s.v y >>> 1) (lowBitFlag (s.v y)))

/-- `8XY7` (R109): the flag is 1 only when `V[Y]` is strictly greater. -/
def execSubn (x y : Reg) (s : State) : Result :=
  .next (s.setVThenFlag x (s.v y - s.v x) (greaterFlag (s.v y) (s.v x)))

/-- `8XYE` (R110): the operand is `V[Y]` and the flag its bit 0, not its bit 7. -/
def execShl (x y : Reg) (s : State) : Result :=
  .next (s.setVThenFlag x (s.v y <<< 1) (lowBitFlag (s.v y)))

/-- `CXNN` (R111): a free byte, drawn afresh, and NN (log 3). -/
def execRnd (x : Reg) (nn : Byte) (s : State) : Result := .next (s.afterDraw.setV x (s.rnd8 &&& nn))

end Sys2Proof.Machine
end

