-- ==== Sys2Proof/Machine/Operands.lean ====
section
/-! DEFINITION. The operand forms (30_encoding.md R63, 42_index_memory.md R126) and the effect of a skip (40_control_flow.md section 3). -/

namespace Sys2Proof.Machine

/-- A 12-bit address immediate, zero-extended to the 16 bits of `pc` or `I` (R63). -/
def address (nnn : BitVec 12) : Word := nnn.setWidth 16

/-- A V register's value, zero-extended to 16 bits (R63). -/
def State.vWord (s : State) (x : Reg) : Word := (s.v x).setWidth 16

/-- The effective address of byte `i` of a data access: `I + i`, never reduced (R126). -/
def State.ea (s : State) (i : Nat) : Nat := s.index.toNat + i

/-- Registers `V[0]` to `V[x]` inclusive, ascending (R124). -/
def State.vUpTo (s : State) (x : Reg) : List Byte := s.regs.toList.take (x.val + 1)

/-- The three decimal digits of a byte, hundreds first (R123; the spec's D18, log 28). -/
def decimalDigits (v : Byte) : List Byte :=
  [BitVec.ofNat 8 (v.toNat / 100), BitVec.ofNat 8 (v.toNat / 10 % 10), BitVec.ofNat 8 (v.toNat % 10)]

/-- The address of the font glyph for the digit in `V[x]`: its low nibble (R122; the spec's D11, log 21). -/
def State.glyphAddress (s : State) (x : Reg) : Word :=
  BitVec.ofNat 16 (s.params.fontBase + Config.glyphBytes * (s.v x &&& 0x0F).toNat)

/-- A skip adds 2 to the advanced `pc` when its condition holds (R84 to R87, R150, R151). -/
def State.skipIf (s : State) (taken : Bool) : State :=
  if taken then { s with pc := s.pc + 2 } else s

end Sys2Proof.Machine
end

