-- ==== Sys2Proof/Machine/Control.lean ====
section
/-! DEFINITION. Return, jumps, call and the register skips (40_control_flow.md R81 to R88), and `NOP` (30_encoding.md R68).

Every meaning is the `execute` of R80: `pc` already holds the address of the following instruction. -/

namespace Sys2Proof.Machine

/-- `00EE` (R81). -/
def execRet (s : State) : Result :=
  if s.sp = 0 then raise .stackUnderflow s.pc0 s
  else .next { s with sp := s.sp - 1, pc := s.stackAt (s.sp - 1) }

/-- `1NNN` (R82). -/
def execJp (nnn : BitVec 12) (s : State) : Result := .next { s with pc := address nnn }

/-- `2NNN` (R83): pushes the advanced `pc`; overflow at STACK_DEPTH entries (the spec's D3, log 11). -/
def execCall (nnn : BitVec 12) (s : State) : Result :=
  if s.sp = s.params.stackDepth then raise .stackOverflow s.pc0 s
  else .next { s.push s.pc with pc := address nnn }

/-- `BNNN` (R88): no mask to 12 bits (the spec's D28, log 32). -/
def execJpV0 (nnn : BitVec 12) (s : State) : Result :=
  .next { s with pc := address nnn + s.vWord 0 }

/-- `3XNN` (R84). -/
def execSeImm (x : Reg) (nn : Byte) (s : State) : Result := .next (s.skipIf (s.v x == nn))

/-- `4XNN` (R85). -/
def execSneImm (x : Reg) (nn : Byte) (s : State) : Result := .next (s.skipIf (s.v x != nn))

/-- `5XY0` (R86). -/
def execSeReg (x y : Reg) (s : State) : Result := .next (s.skipIf (s.v x == s.v y))

/-- `9XY0` (R87). -/
def execSneReg (x y : Reg) (s : State) : Result := .next (s.skipIf (s.v x != s.v y))

/-- `NOP` (R68): `pc` is already advanced; no other effect. -/
def execNop (s : State) : Result := .next s

end Sys2Proof.Machine
end

