-- ==== Sys2Proof/Machine/Display.lean ====
section
/-! DEFINITION. Clear and draw (43_display.md R140 to R142). -/

namespace Sys2Proof.Machine

/-- `FB[y][x]`; a place outside the 64 by 32 grid is off. -/
def Framebuffer.cell (fb : Framebuffer) (y x : Nat) : Bool :=
  if h : y < 32 ∧ x < 64 then (fb[y]'h.1)[x]'h.2 else false

/-- Draw one 1 bit at (y, x): toggle the cell and note whether it was on; outside the grid nothing is drawn
(clipped, R141). -/
def plot (y x : Nat) (fb : Framebuffer) (collision : Bool) : Framebuffer × Bool :=
  if h : y < 32 ∧ x < 64 then
    let row := fb[y]'h.1
    (fb.set y (row.set x (!row[x]'h.2) h.2) h.1, collision || row[x]'h.2)
  else (fb, collision)

/-- One sprite row: columns `c` to 7 of byte `b` at row `y`. Column x0 + c takes bit 7 - c (R142; the spec's D17,
log 27). The first argument is how many columns are left, 8 - c. -/
def drawRow (y x0 : Nat) (b : Byte) : Nat → Framebuffer → Bool → Framebuffer × Bool
  | 0, fb, collision => (fb, collision)
  | left + 1, fb, collision =>
    if b.getLsbD left then
      let r := plot y (x0 + (7 - left)) fb collision
      drawRow y x0 b left r.1 r.2
    else drawRow y x0 b left fb collision

/-- The rows of a sprite from row `y` down, one byte each (R141). -/
def drawRows (x0 : Nat) : Nat → List Byte → Framebuffer → Bool → Framebuffer × Bool
  | _, [], fb, collision => (fb, collision)
  | y, b :: bs, fb, collision =>
    let r := drawRow y x0 b 8 fb collision
    drawRows x0 (y + 1) bs r.1 r.2

/-- The sprite of `DXYN` drawn on the framebuffer: start column `V[X] mod 64`, start row `V[Y] mod 32`, bytes
`I` to `I + N - 1` (R141). The second part is the collision flag. -/
def State.drawSprite (s : State) (x y : Reg) (n : BitVec 4) : Framebuffer × Bool :=
  drawRows ((s.v x).toNat % 64) ((s.v y).toNat % 32) (s.bytesAt (s.ea 0) n.toNat) s.fb false

/-- `00E0` (R140). -/
def execCls (s : State) : Result :=
  .next { s with fb := Vector.replicate 32 (Vector.replicate 64 false) }

/-- `DXYN` (R141): all N bytes are checked before anything is drawn (the spec's D19, log 29); `VF` last. -/
def execDrw (x y : Reg) (n : BitVec 4) (s : State) : Result :=
  checked (s.ea 0) n.toNat s
    ({ s with fb := (s.drawSprite x y n).1 }.setV Reg.vf (flagByte (s.drawSprite x y n).2))

end Sys2Proof.Machine
end

