-- ==== Sys2Proof/Machine/Index.lean ====
section
/-! DEFINITION. The index register, stores and load (42_index_memory.md R120 to R126). -/

namespace Sys2Proof.Machine

/-- `ANNN` (R120). -/
def execLdI (nnn : BitVec 12) (s : State) : Result := .next { s with index := address nnn }

/-- `FX1E` (R121): wraps at 65536, `VF` is not written (the spec's D9, log 19). -/
def execAddI (x : Reg) (s : State) : Result := .next { s with index := s.index + s.vWord x }

/-- `FX29` (R122). -/
def execLdF (x : Reg) (s : State) : Result := .next { s with index := s.glyphAddress x }

/-- `FX33` (R123): three bytes, checked whole. -/
def execLdB (x : Reg) (s : State) : Result :=
  checked (s.ea 0) 3 s (s.storeBytes (s.ea 0) (decimalDigits (s.v x)))

/-- `FX55` (R124): X + 1 bytes, checked whole; `I` is not changed (the spec's D10, log 20). -/
def execStRegs (x : Reg) (s : State) : Result :=
  checked (s.ea 0) (x.val + 1) s (s.storeBytes (s.ea 0) (s.vUpTo x))

/-- `FX65` (R125): X + 1 bytes, checked whole; `I` is not changed (the spec's D10, log 20). -/
def execLdRegs (x : Reg) (s : State) : Result :=
  checked (s.ea 0) (x.val + 1) s
    { s with regs := loadRegsFrom s.regs 0 (s.bytesAt (s.ea 0) (x.val + 1)) }

end Sys2Proof.Machine
end

