-- ==== Sys2Proof/Machine/KeysTimers.lean ====
section
/-! DEFINITION. The key and timer instructions (44_keys_timers.md R150 to R155). -/

namespace Sys2Proof.Machine

/-- `EX9E` (R150). -/
def execSkp (x : Reg) (s : State) : Result := .next (s.skipIf (s.keyIsDown (s.v x).toNat))

/-- `EXA1` (R151): the complement of `EX9E`. -/
def execSknp (x : Reg) (s : State) : Result := .next (s.skipIf (!s.keyIsDown (s.v x).toNat))

/-- `FX0A` (R152): with no key down `pc` goes back to this instruction; else `V[X]` is `lastKey` (the spec's D15, log 25). -/
def execLdVxK (x : Reg) (s : State) : Result :=
  if s.anyKey then .next (s.setV x (BitVec.ofNat 8 s.lastKey.val))
  else .next { s with pc := s.pc - 2 }

/-- `FX07` (R153). -/
def execLdVxDt (x : Reg) (s : State) : Result := .next (s.setV x s.dt)

/-- `FX15` (R154). -/
def execLdDtVx (x : Reg) (s : State) : Result := .next { s with dt := s.v x }

/-- `FX18` (R155). -/
def execLdStVx (x : Reg) (s : State) : Result := .next { s with st := s.v x }

end Sys2Proof.Machine
end

