-- ==== Sys2Proof/Machine/Cycle.lean ====
section
/-! DEFINITION. The core's step: fetch, advance, decode, execute (40_control_flow.md R80). -/

namespace Sys2Proof.Machine

open Sys2Proof.Config

/-- The instruction word at address `a`, high byte at the lower address (R43). -/
def State.wordAt (s : State) (a : Nat) : Word := wordOfBytes (s.byteAt a) (s.byteAt (a + 1))

/-- One cycle (R80). The fetch is one two-byte access, checked whole; a faulting fetch leaves `pc` where it was. -/
def cycle (s : State) : Result :=
  if outOfRange s.pc.toNat 2 then raiseAt s.pc .memoryOutOfRange (rangeInfo s.pc.toNat) s
  else exec (decodeWord (s.wordAt s.pc.toNat)) { s with pc := s.pc + 2 }

/-- Is the machine running: a cycle and a tick are enabled only when it is neither halted nor paused (R20, R80, R171, R179). -/
def State.running (s : State) : Bool := s.fault == .none && !s.paused

/-- The address at which the next instruction can be stored: `pc`, or 0x200 where no whole word fits at `pc`. -/
def State.fetchPlace (s : State) : Word := if outOfRange s.pc.toNat 2 then 0x200 else s.pc

/-- The state with a word stored where the next cycle fetches it, high byte first, and that cycle enabled: nothing
scheduled, not paused, not halted (log 7). -/
def State.withWord (s : State) (w : Word) : State :=
  { s.storeBytes s.fetchPlace.toNat [w.extractLsb' 8 8, w.extractLsb' 0 8] with
    pc := s.fetchPlace, schedule := [], paused := false, fault := .none, faultInfo := 0 }

end Sys2Proof.Machine
end

