-- ==== Sys2Proof/Machine/Pacing.lean ====
section
/-! DEFINITION. The timer unit and the pacing unit (60_exceptions.md R179, R180). -/

namespace Sys2Proof.Machine

open Sys2Proof.Config

/-- One decrement of a timer, clamped at 0 (R179). -/
def decrement (t : Byte) : Byte := if t = 0 then 0 else t - 1

/-- One tick: both timers (R179). -/
def tick (s : State) : State := { s with dt := decrement s.dt, st := decrement s.st }

/-- `repeat n times: Tick()` (R180). -/
def ticks : Nat → State → State
  | 0, s => s
  | n + 1, s => ticks n (tick s)

/-- `repeat m times: if fault != 0 stop, Cycle()` (R180): a fault abandons the remaining cycles (R171). -/
def cycles : Nat → State → Result
  | 0, s => .next s
  | m + 1, s =>
    if s.fault = .none then
      match cycle s with
      | .next t => cycles m t
      | .fault f => .fault f
      | .refused r => .refused r
    else .next s

/-- The whole periods in an accumulator: its floor (R180). -/
def wholePeriods (acc : ℚ) : Nat := ⌊acc⌋₊

/-- `tickAcc` with the elapsed time added, in tick periods (R180). -/
def State.tickTotal (s : State) (elapsedMillis : ℚ) : ℚ := s.tickAcc + elapsedMillis * tickHz / 1000

/-- `cycleAcc` with the elapsed time added, in cycle periods (R180). -/
def State.cycleTotal (s : State) (elapsedMillis : ℚ) : ℚ :=
  s.cycleAcc + elapsedMillis * s.params.cycleHz / 1000

/-- `Advance(elapsedMillis)` (R180): nothing while halted or paused; else all ticks, then all cycles, in exact
arithmetic (the spec's D20, D21, logs 30, 31). A negative time is refused (U20; log 8). -/
def advance (elapsedMillis : ℚ) (s : State) : Result :=
  if elapsedMillis < 0 then .refused .negativeElapsed
  else if s.running then
    let n := wholePeriods (s.tickTotal elapsedMillis)
    let m := wholePeriods (s.cycleTotal elapsedMillis)
    cycles m (ticks n { s with tickAcc := s.tickTotal elapsedMillis - n, cycleAcc := s.cycleTotal elapsedMillis - m })
  else .next s

end Sys2Proof.Machine
end

