-- ==== Sys2Proof/Machine/HostEvents.lean ====
section
/-! DEFINITION. The host interface: events that change state (60_exceptions.md R175 to R178, 70_reset_and_hazards.md R200, R201), the read ports (R183, R185), and whose move it is (R181, R189). -/

namespace Sys2Proof.Machine

open Sys2Proof.Config

/-- `KeyDown(k)` (R176; the spec's D15, log 25). -/
def keyDown (k : Key) (s : State) : State :=
  { s with keys := s.keys.set k.val true k.isLt, lastKey := k }

/-- `KeyUp(k)` (R177): `lastKey` is not changed. -/
def keyUp (k : Key) (s : State) : State := { s with keys := s.keys.set k.val false k.isLt }

/-- `TogglePause` (R178). -/
def togglePause (s : State) : State := { s with paused := !s.paused }

/-- The failure of a load, reported to the caller (R170, R201). -/
inductive LoadError where
  | romTooLarge
  deriving DecidableEq, Repr

/-- `Reset/Load(buf, len)` (R200): every piece of state takes its reset value, and the program stands from 0x200.
A program over 3584 bytes is an error (R201). The parameters are the machine's own; the count of draws and the
schedule are no state of the spec's and go on (logs 2, 3). -/
def loadProgram (program : List Byte) (s : State) : Except LoadError State :=
  if romMax < program.length then .error .romTooLarge
  else .ok ({ State.resetWith s.params with draws := s.draws, schedule := s.schedule }.storeBytes progBase program)

/-- The load as a move: a failed load leaves the machine as it was (R201; the spec's D26, log 33). -/
def load (program : List Byte) (s : State) : State :=
  match loadProgram program s with
  | .ok t => t
  | .error _ => s

/-- `ReadFramebuffer` (R185): all cells, no effect. -/
def readFramebuffer (s : State) : Framebuffer := s.fb

/-- `ReadSound` (R183; the spec's D25): the sound timer, no effect. -/
def readSound (s : State) : Byte := s.st

/-- `ReadFault` (R175, R170): the cause code and `faultInfo`, no effect. -/
def readFault (s : State) : BitVec 2 × Word :=
  (match s.fault with
    | .none => 0
    | .stackUnderflow => 1
    | .stackOverflow => 2
    | .memoryOutOfRange => 3, s.faultInfo)

/-- A scheduled move of an agent. A cycle or a tick that is not enabled does nothing (R20, R80, R171, R179). -/
def applyMove (m : Move) (s : State) : Result :=
  match m with
  | .cycle => if s.running then cycle s else .next s
  | .tick => .next (if s.running then tick s else s)
  | .advance e => advance e s
  | .keyDown k => .next (keyDown k s)
  | .keyUp k => .next (keyUp k s)
  | .togglePause => .next (togglePause s)
  | .load program => .next (load program s)

/-- The core's own turn, with nothing scheduled (R181, last sentence; log 2): a halted machine has no transition
(R171, R172; log 6), a paused one waits (R178), a running one does one cycle. -/
def coreTurn (s : State) : Result :=
  if s.fault = .none then (if s.paused then .next s else cycle s)
  else .fault (.halted s.fault s.faultInfo)

/-- The next move: the first scheduled one, else the core's. -/
def nextMove (s : State) : Result :=
  match s.schedule with
  | [] => coreTurn s
  | m :: rest => applyMove m { s with schedule := rest }

end Sys2Proof.Machine
end

