-- ==== Sys2Proof/Machine/Step.lean ====
section
/-! DEFINITION. One step of the machine: one move of one agent (60_exceptions.md R189), and how a test places an instruction. -/

namespace Sys2Proof.Machine

/-- One step: the next move. -/
def step (s : State) : Host.Outcome State Fault Refusal := nextMove s

/-- `s` with a table word stored where `step` fetches its next instruction, and everything that fetch takes (log 7). -/
def State.withFetchWord (s : State) (_nbits w : Nat) : State := s.withWord (BitVec.ofNat 16 w)

end Sys2Proof.Machine
end

