-- ==== Sys2Proof/Safety.lean ====
section
/-! DEFINITION. What a safe state, a safe run and an ended run are, in the terms claims use (60_exceptions.md R171, 70_reset_and_hazards.md R203). -/

namespace Sys2Proof.Machine

open Sys2Proof.Config

/-- The relations between fields that every state of the machine meets: legal parameters (R5), memory in its
canonical form (log 5), the stack's array and count (R14), return addresses and `pc` in the bounds of R90, the
accumulators' bounds (R22), and no fault information without a fault (R170). -/
structure State.Inv (s : State) : Prop where
  params_valid : s.params.valid
  mem_wf : Memory.wf s.params s.mem
  stack_length : s.stack.length = s.params.stackDepth
  sp_le : s.sp ≤ s.params.stackDepth
  return_le : ∀ j < s.sp, (s.stackAt j).toNat ≤ 0x1000
  pc_le : s.pc.toNat ≤ 0x10FE
  tick_nonneg : 0 ≤ s.tickAcc
  tick_lt : s.tickAcc < 1
  cycle_nonneg : 0 ≤ s.cycleAcc
  cycle_lt : s.cycleAcc < 1
  info_zero : s.fault = .none → s.faultInfo = 0

/-- The run of `k` steps from `s` goes on, and the fault latch stays 0 throughout: a halted machine is never a
good state (R171). -/
def safeRun : Nat → State → Prop
  | 0, s => s.fault = .none
  | k + 1, s => s.fault = .none ∧ ∃ t, step s = .next t ∧ safeRun k t

/-- The run has ended: no fault, and the word at `pc` is a `1NNN` to its own address (R203; the spec's D23, log 34). -/
abbrev State.ended (s : State) : Prop :=
  s.fault = .none ∧ s.pc.toNat ≤ 0xFFE ∧ s.wordAt s.pc.toNat = 0x1000 ||| s.pc

/-- The words a row of the opcode map gives an instruction: exactly those with `w & mask = pattern` decode to it,
their fields in its operands (R67). -/
abbrev decodesAs (mask pattern : Word) (i : Word → Instr) : Prop :=
  ∀ w : Word, w &&& mask = pattern ↔ decodeWord w = i w

/-- The state after a fault of the executing instruction: `pc` at its address, the two latches (R171). -/
def State.faulted (s : State) (cause : FaultCause) (info : Word) : State :=
  { s with pc := s.pc - 2, fault := cause, faultInfo := info }

/-- Does the sprite of `DXYN` in `s` put a 1 bit on the framebuffer's cell (row, column)? Sprite row r, column c is
bit 7 - c of the byte at `I + r`; it falls on row `V[Y] mod 32 + r`, column `V[X] mod 64 + c` (R141, R142). -/
abbrev State.spriteBit (s : State) (x y : Reg) (n : BitVec 4) (row column : Nat) : Prop :=
  ∃ r < n.toNat, ∃ c < 8, row = (s.v y).toNat % 32 + r ∧ column = (s.v x).toNat % 64 + c ∧
    (s.byteAt (s.ea r)).getLsbD (7 - c) = true

/-- Cause and information of a range fault for an access from `a`: the lowest address above 0xFFF (R47, R170). -/
def rangeFault (a : Word) : FaultCause × Word :=
  (.memoryOutOfRange, if a.toNat < 0x1000 then 0x1000 else a)

/-- The fault of an instruction's own, if its condition holds in `s`: cause and information (table of R170, R126). -/
def faultOf (i : Instr) (s : State) : Option (FaultCause × Word) :=
  match i with
  | .ret => if s.sp = 0 then some (.stackUnderflow, s.pc - 2) else none
  | .call _ => if s.sp = s.params.stackDepth then some (.stackOverflow, s.pc - 2) else none
  | .drw _ _ n =>
    if 1 ≤ n.toNat ∧ 0xFFF < s.index.toNat + n.toNat - 1 then some (rangeFault s.index) else none
  | .ldB _ => if 0xFFD < s.index.toNat then some (rangeFault s.index) else none
  | .stRegs x => if 0xFFF < s.index.toNat + x.val then some (rangeFault s.index) else none
  | .ldRegs x => if 0xFFF < s.index.toNat + x.val then some (rangeFault s.index) else none
  | .cls | .jp _ | .seImm _ _ | .sneImm _ _ | .seReg _ _ _ | .ldImm _ _ | .addImm _ _ | .ldReg _ _ => none
  | .orReg _ _ | .andReg _ _ | .xorReg _ _ | .addReg _ _ | .subReg _ _ | .shr _ _ | .subn _ _ | .shl _ _ => none
  | .sneReg _ _ _ | .ldI _ | .jpV0 _ | .rnd _ _ | .skp _ | .sknp _ | .ldVxDt _ | .ldVxK _ => none
  | .ldDtVx _ | .ldStVx _ | .addI _ | .ldF _ | .nop _ => none

/-- The fault that a cycle beginning in `s` meets, if any: that of its fetch, which is checked first (R173), else that of
the word it executes. -/
def faultOfCycle (s : State) : Option (FaultCause × Word) :=
  if 0xFFF ≤ s.pc.toNat then some (rangeFault s.pc)
  else faultOf (decodeWord (s.wordAt s.pc.toNat)) { s with pc := s.pc + 2 }

/-- Does a step of `s` perform a cycle that begins in `u`? Only while the machine runs: the core's own turn, a scheduled
cycle, or one of the cycles of a scheduled advance, after all its ticks, `k` of them being done (R180). -/
def State.performsCycleAt (s u : State) : Prop :=
  s.running = true ∧ u.fault = .none ∧
  match s.schedule with
  | [] => u = s
  | .cycle :: rest => u = { s with schedule := rest }
  | .advance e :: rest =>
    ∃ k < wholePeriods (s.cycleTotal e),
      cycles k (ticks (wholePeriods (s.tickTotal e))
        { s with schedule := rest, tickAcc := s.tickTotal e - wholePeriods (s.tickTotal e),
                 cycleAcc := s.cycleTotal e - wholePeriods (s.cycleTotal e) }) = .next u
  | .tick :: _ | .keyDown _ :: _ | .keyUp _ :: _ | .togglePause :: _ | .load _ :: _ => False

/-- Does a V register count as written by the instruction, as result or as flag (column `V` of R23)? -/
def writesV (i : Instr) (r : Reg) : Prop :=
  match i with
  | .ldImm x _ | .addImm x _ | .ldReg x _ | .orReg x _ | .andReg x _ | .xorReg x _ | .rnd x _ => r = x
  | .ldVxDt x | .ldVxK x => r = x
  | .addReg x _ | .subReg x _ | .shr x _ | .subn x _ | .shl x _ => r = x ∨ r = Reg.vf
  | .drw _ _ _ => r = Reg.vf
  | .ldRegs x => r ≤ x
  | .cls | .ret | .jp _ | .call _ | .seImm _ _ | .sneImm _ _ | .seReg _ _ _ | .sneReg _ _ _ => False
  | .ldI _ | .jpV0 _ | .skp _ | .sknp _ | .ldDtVx _ | .ldStVx _ | .addI _ | .ldF _ | .ldB _ => False
  | .stRegs _ | .nop _ => False

/-- The six instructions that write `VF` as a flag (R11). -/
def writesFlag (i : Instr) : Prop :=
  match i with
  | .addReg _ _ | .subReg _ _ | .shr _ _ | .subn _ _ | .shl _ _ | .drw _ _ _ => True
  | .cls | .ret | .jp _ | .call _ | .seImm _ _ | .sneImm _ _ | .seReg _ _ _ | .sneReg _ _ _ => False
  | .ldImm _ _ | .addImm _ _ | .ldReg _ _ | .orReg _ _ | .andReg _ _ | .xorReg _ _ | .rnd _ _ => False
  | .ldI _ | .jpV0 _ | .skp _ | .sknp _ | .ldVxDt _ | .ldVxK _ | .ldDtVx _ | .ldStVx _ => False
  | .addI _ | .ldF _ | .ldB _ | .stRegs _ | .ldRegs _ | .nop _ => False

/-- The two states differ at most in stack entries not in use (R14). -/
abbrev sameBelowSp (s t : State) : Prop :=
  t = { s with stack := t.stack } ∧ t.stack.length = s.stack.length ∧ ∀ j < s.sp, t.stackAt j = s.stackAt j

end Sys2Proof.Machine
end

