-- ==== Sys2Proof/Certificates/Slice0/Obligations.lean ====
section
/-! DEFINITION. The statements about the model, from the numbered rules of spec/. Every `exec` here runs on the state whose `pc` fetch has advanced (R80). -/

open Sys2Proof Sys2Proof.Machine Sys2Proof.Config

/-! ## Encoding -/

/-- R61, R62, R67: decoding the word, or the two bytes in memory order, of a well-formed instruction gives it back (that
`seReg`, `sneReg` carry the ignored low nibble and `nop` its word is the model's choice, log 9). -/
def Obligations.DecodingAnEncodedInstructionGivesItBack : Prop :=
  ∀ i : Instr, i.wellFormed = true →
    decodeWord (encode i) = i ∧
    ∀ rest : List Byte,
      decodeBytes ((encode i).extractLsb' 8 8 :: (encode i).extractLsb' 0 8 :: rest) = .ok (i, rest)

/-- Every word decodes to one well-formed instruction, and encoding that gives the word back (R60 to R68 give each word
one meaning). That `encode` recovers the ignored low nibble of 5XYN and 9XYN and the whole of an unrecognised word is the
model's choice, `seReg`, `sneReg` and `nop` carrying those bits (log 9; the low nibble is ignored by the spec's D14,
log 17). -/
def Obligations.EncodingADecodedWordGivesItBack : Prop :=
  ∀ w : Word, (decodeWord w).wellFormed = true ∧ encode (decodeWord w) = w

/-- R67: 34 rows, no two overlap, and a word is a row's instruction exactly when `w & mask = match`; a 0NNN word
other than `00E0` and `00EE` is unrecognised. -/
def Obligations.OpcodeMapSelectsTheInstruction : Prop :=
  opcodeMap.length = 34 ∧ opcodeMap.Nodup ∧
  (∀ (w : Word) (r q : OpcodeRow), r ∈ opcodeMap → q ∈ opcodeMap → r.accepts w → q.accepts w → r = q) ∧
  (∀ (w : Word) (r : OpcodeRow), r ∈ opcodeMap → (r.accepts w ↔ rowOf (decodeWord w) = some r)) ∧
  (∀ w : Word, w &&& 0xF000 = 0 → w ≠ 0x00E0 → w ≠ 0x00EE → decodeWord w = .nop w)

/-- R61: the fields are the nibbles of the word, the first the most significant. -/
def Obligations.FieldsAreTheNibblesOfTheWord : Prop :=
  ∀ op x y n : Nat, op < 16 → x < 16 → y < 16 → n < 16 →
    ∀ w : Word, w.toNat = op * 4096 + x * 256 + y * 16 + n →
      (fieldOp w).toNat = op ∧ (fieldX w).val = x ∧ (fieldY w).val = y ∧ (fieldN w).toNat = n ∧
      (fieldNN w).toNat = y * 16 + n ∧ (fieldNNN w).toNat = x * 256 + y * 16 + n

/-- R68: a word no row matches executes as `NOP`: the cycle advances `pc` by 2 and changes nothing else. -/
def Obligations.UnrecognisedWordsAreNoOperations : Prop :=
  (∀ w : Word, (∀ r ∈ opcodeMap, ¬ r.accepts w) ↔ Word.unrecognised w) ∧
  (∀ w : Word, Word.unrecognised w → decodeWord w = .nop w) ∧
  (∀ (w : Word) (s : State), exec (.nop w) s = .next s) ∧
  (∀ s : State, s.pc.toNat ≤ 0xFFE → Word.unrecognised (s.wordAt s.pc.toNat) →
    cycle s = .next { s with pc := s.pc + 2 })

/-- Words written out from the patterns of R67 decode to their instructions, at least one for each of the 16 families, a
family being a top nibble (a sanity statement; that 5XYN and 9XYN run for every low nibble is the spec's D14, log 17, and
that the instruction carries it and `nop` its word is the model's choice, log 9). -/
def Obligations.WordsOfEveryFamilyDecode : Prop :=
  decodeWord 0x00E0 = .cls ∧ decodeWord 0x00EE = .ret ∧ decodeWord 0x1234 = .jp 0x234 ∧
  decodeWord 0x2300 = .call 0x300 ∧ decodeWord 0x3A05 = .seImm 10 0x05 ∧ decodeWord 0x4B06 = .sneImm 11 0x06 ∧
  decodeWord 0x512F = .seReg 1 2 0xF ∧ decodeWord 0x6A2C = .ldImm 10 0x2C ∧ decodeWord 0x7103 = .addImm 1 0x03 ∧
  decodeWord 0x9340 = .sneReg 3 4 0x0 ∧ decodeWord 0xBFFE = .jpV0 0xFFE ∧
  decodeWord 0x8AB4 = .addReg 10 11 ∧ decodeWord 0x812E = .shl 1 2 ∧ decodeWord 0xA2F0 = .ldI 0x2F0 ∧
  decodeWord 0xC30F = .rnd 3 0x0F ∧ decodeWord 0xD7A5 = .drw 7 10 5 ∧ decodeWord 0xE29E = .skp 2 ∧
  decodeWord 0xF265 = .ldRegs 2 ∧ decodeWord 0x8128 = .nop 0x8128 ∧ decodeWord 0x0000 = .nop 0x0000

/-! ## The cycle and the step -/

/-- R43: fetch combines the two bytes at `pc`, `pc + 1` high byte first, and the cycle executes that word. -/
def Obligations.FetchIsBigEndian : Prop :=
  ∀ s : State, s.pc.toNat ≤ 0xFFE →
    ∃ w : Word, w.toNat = (s.byteAt s.pc.toNat).toNat * 256 + (s.byteAt (s.pc.toNat + 1)).toNat ∧
      cycle s = exec (decodeWord w) { s with pc := s.pc + 2 }

/-- On a machine that is neither paused nor halted, a step with nothing scheduled, and one with a cycle scheduled, runs the
instruction that the two bytes at `pc` decode to, on the state whose `pc` is advanced by 2 (R80, R189; that the core moves
when nothing is scheduled, and that moves are scheduled, is the model's choice, log 2). -/
def Obligations.StepRunsTheDecodedInstruction : Prop :=
  ∀ (s : State) (i : Instr), s.fault = .none → s.paused = false → s.pc.toNat ≤ 0xFFE →
    decodeBytes [s.byteAt s.pc.toNat, s.byteAt (s.pc.toNat + 1)] = .ok (i, []) →
    (s.schedule = [] → step s = exec i { s with pc := s.pc + 2 }) ∧
    (∀ rest, s.schedule = .cycle :: rest → step s = exec i { s with schedule := rest, pc := s.pc + 2 })

/-- A fetch that does not fit below 0x1000 faults and leaves everything but the latches (R80, R46, R47; the
spec's D6, D7, D8, log 16). -/
def Obligations.FetchPastMemoryFaults : Prop :=
  ∀ s : State, 0xFFF ≤ s.pc.toNat →
    cycle s = .next { s with fault := .memoryOutOfRange, faultInfo := if s.pc.toNat = 0xFFF then 0x1000 else s.pc }

/-- A faulting cycle changes nothing but the two latches: `pc` is the address of the faulting instruction (R171; the
spec's D6, D8, log 16). -/
def Obligations.FaultsArePrecise : Prop :=
  ∀ s t : State, s.fault = .none → cycle s = .next t → t.fault ≠ .none →
    t = { s with fault := t.fault, faultInfo := t.faultInfo }

/-- Each instruction faults exactly on the condition of the table of R170 and R126, with its cause and information
(the spec's D6, D7, D8, log 16); every other execution leaves the latches alone. -/
def Obligations.InstructionsFaultExactlyAsTabled : Prop :=
  ∀ (i : Instr) (s : State),
    match faultOf i s with
    | some (cause, info) => exec i s = .next { s with pc := s.pc - 2, fault := cause, faultInfo := info }
    | none => ∃ t, exec i s = .next t ∧ t.fault = s.fault ∧ t.faultInfo = s.faultInfo

/-! ## Control flow -/

/-- `00EE` pops the stack into `pc` (R81); on an empty stack it raises StackUnderflow with no other change (the latches and
`pc` then by the spec's D6, D7, D8, log 16). -/
def Obligations.ReturnPopsTheStack : Prop :=
  decodesAs 0xFFFF 0x00EE (fun _ => .ret) ∧
  ∀ s : State,
    (s.sp ≠ 0 → exec .ret s = .next { s with sp := s.sp - 1, pc := s.stackAt (s.sp - 1) }) ∧
    (s.sp = 0 → exec .ret s = .next { s with pc := s.pc - 2, fault := .stackUnderflow, faultInfo := s.pc - 2 })

/-- R82: `1NNN` sets `pc` to NNN, and nothing else. -/
def Obligations.JumpSetsPc : Prop :=
  decodesAs 0xF000 0x1000 (fun w => .jp (fieldNNN w)) ∧
  ∀ (s : State) (nnn : BitVec 12), ∃ t, exec (.jp nnn) s = .next t ∧
    t.pc.toNat = nnn.toNat ∧ t = { s with pc := t.pc }

/-- `2NNN` pushes the advanced `pc` and jumps; with a full stack it raises StackOverflow (R83; the bound by the spec's
D3, log 11; the latches, the information and `pc` then by its D6, D7, D8, log 16). -/
def Obligations.CallPushesTheReturnAddress : Prop :=
  decodesAs 0xF000 0x2000 (fun w => .call (fieldNNN w)) ∧
  ∀ (s : State) (nnn : BitVec 12), s.stack.length = s.params.stackDepth →
    (s.sp < s.params.stackDepth → ∃ t, exec (.call nnn) s = .next t ∧
      t.sp = s.sp + 1 ∧ t.stackAt s.sp = s.pc ∧ (∀ j, j ≠ s.sp → t.stackAt j = s.stackAt j) ∧
      t.stack.length = s.stack.length ∧ t.pc.toNat = nnn.toNat ∧
      t = { s with pc := t.pc, sp := t.sp, stack := t.stack }) ∧
    (s.sp = s.params.stackDepth →
      exec (.call nnn) s = .next { s with pc := s.pc - 2, fault := .stackOverflow, faultInfo := s.pc - 2 })

/-- A call and then a return give back the address pushed and the depth before (95_test_vectors.md S5; the bounded stack
by the spec's D3, log 11). -/
def Obligations.CallThenReturnComesBack : Prop :=
  ∀ (s : State) (nnn : BitVec 12) (pc' : Word), s.stack.length = s.params.stackDepth →
    s.sp < s.params.stackDepth →
    ∃ t u, exec (.call nnn) s = .next t ∧ exec .ret { t with pc := pc' } = .next u ∧
      u = { s with stack := u.stack } ∧ ∀ j < s.sp, u.stackAt j = s.stackAt j

/-- `BNNN` sets `pc` to NNN + V0, not masked to 12 bits (R88; the spec's D28, log 32). -/
def Obligations.JumpWithOffsetAddsV0 : Prop :=
  decodesAs 0xF000 0xB000 (fun w => .jpV0 (fieldNNN w)) ∧
  ∀ (s : State) (nnn : BitVec 12), ∃ t, exec (.jpV0 nnn) s = .next t ∧
    t.pc.toNat = nnn.toNat + (s.v 0).toNat ∧ t = { s with pc := t.pc }

/-- R84, R85: `3XNN` and `4XNN` add 2 to the advanced `pc` when `V[X]` = NN, and when not. -/
def Obligations.ImmediateSkips : Prop :=
  decodesAs 0xF000 0x3000 (fun w => .seImm (fieldX w) (fieldNN w)) ∧
  decodesAs 0xF000 0x4000 (fun w => .sneImm (fieldX w) (fieldNN w)) ∧
  ∀ (s : State) (x : Reg) (nn : Byte),
    exec (.seImm x nn) s = .next (if s.v x = nn then { s with pc := s.pc + 2 } else s) ∧
    exec (.sneImm x nn) s = .next (if s.v x = nn then s else { s with pc := s.pc + 2 })

/-- `5XY0` and `9XY0` add 2 to the advanced `pc` when `V[X]` = `V[Y]`, and when not, whatever the low nibble is (R86,
R87; the low nibble by the spec's D14, log 17). -/
def Obligations.RegisterSkips : Prop :=
  decodesAs 0xF000 0x5000 (fun w => .seReg (fieldX w) (fieldY w) (fieldN w)) ∧
  decodesAs 0xF000 0x9000 (fun w => .sneReg (fieldX w) (fieldY w) (fieldN w)) ∧
  ∀ (s : State) (x y : Reg) (n : BitVec 4),
    exec (.seReg x y n) s = .next (if s.v x = s.v y then { s with pc := s.pc + 2 } else s) ∧
    exec (.sneReg x y n) s = .next (if s.v x = s.v y then s else { s with pc := s.pc + 2 })

/-! ## Arithmetic and logic -/

/-- R100, R101: `6XNN` loads NN; `7XNN` adds NN modulo 256 and writes no flag. -/
def Obligations.ImmediateLoadAndAdd : Prop :=
  decodesAs 0xF000 0x6000 (fun w => .ldImm (fieldX w) (fieldNN w)) ∧
  decodesAs 0xF000 0x7000 (fun w => .addImm (fieldX w) (fieldNN w)) ∧
  ∀ (s : State) (x : Reg) (nn : Byte),
    (∃ t, exec (.ldImm x nn) s = .next t ∧ t.v x = nn ∧
      (∀ r, r ≠ x → t.v r = s.v r) ∧ t = { s with regs := t.regs }) ∧
    (∃ t, exec (.addImm x nn) s = .next t ∧ (t.v x).toNat = ((s.v x).toNat + nn.toNat) % 256 ∧
      (∀ r, r ≠ x → t.v r = s.v r) ∧ t = { s with regs := t.regs })

/-- R102 to R105: copy, or, and, exclusive or write `V[X]` alone; `VF` is not written as a flag. -/
def Obligations.CopyAndLogicWriteOnlyVX : Prop :=
  decodesAs 0xF00F 0x8000 (fun w => .ldReg (fieldX w) (fieldY w)) ∧
  decodesAs 0xF00F 0x8001 (fun w => .orReg (fieldX w) (fieldY w)) ∧
  decodesAs 0xF00F 0x8002 (fun w => .andReg (fieldX w) (fieldY w)) ∧
  decodesAs 0xF00F 0x8003 (fun w => .xorReg (fieldX w) (fieldY w)) ∧
  ∀ (s : State) (x y : Reg),
    (∃ t, exec (.ldReg x y) s = .next t ∧ t.v x = s.v y ∧
      (∀ r, r ≠ x → t.v r = s.v r) ∧ t = { s with regs := t.regs }) ∧
    (∃ t, exec (.orReg x y) s = .next t ∧ (t.v x).toNat = (s.v x).toNat ||| (s.v y).toNat ∧
      (∀ r, r ≠ x → t.v r = s.v r) ∧ t = { s with regs := t.regs }) ∧
    (∃ t, exec (.andReg x y) s = .next t ∧ (t.v x).toNat = (s.v x).toNat &&& (s.v y).toNat ∧
      (∀ r, r ≠ x → t.v r = s.v r) ∧ t = { s with regs := t.regs }) ∧
    (∃ t, exec (.xorReg x y) s = .next t ∧ (t.v x).toNat = (s.v x).toNat ^^^ (s.v y).toNat ∧
      (∀ r, r ≠ x → t.v r = s.v r) ∧ t = { s with regs := t.regs })

/-- R106: `8XY4`: the sum modulo 256, and `VF` = 1 exactly when the sum exceeds 255; the flag wins when X = F. -/
def Obligations.AddWritesSumAndCarry : Prop :=
  decodesAs 0xF00F 0x8004 (fun w => .addReg (fieldX w) (fieldY w)) ∧
  ∀ (s : State) (x y : Reg), ∃ t, exec (.addReg x y) s = .next t ∧
    (t.v Reg.vf).toNat = (if 255 < (s.v x).toNat + (s.v y).toNat then 1 else 0) ∧
    (x ≠ Reg.vf → (t.v x).toNat = ((s.v x).toNat + (s.v y).toNat) % 256) ∧
    (∀ r, r ≠ x → r ≠ Reg.vf → t.v r = s.v r) ∧ t = { s with regs := t.regs }

/-- R107, R109: `8XY5` and `8XY7`: the difference modulo 256, and `VF` = 1 exactly when the minuend is strictly
greater; the flag wins when X = F. -/
def Obligations.SubtractWritesDifferenceAndStrictFlag : Prop :=
  decodesAs 0xF00F 0x8005 (fun w => .subReg (fieldX w) (fieldY w)) ∧
  decodesAs 0xF00F 0x8007 (fun w => .subn (fieldX w) (fieldY w)) ∧
  ∀ (s : State) (x y : Reg),
    (∃ t, exec (.subReg x y) s = .next t ∧
      (t.v Reg.vf).toNat = (if (s.v y).toNat < (s.v x).toNat then 1 else 0) ∧
      (x ≠ Reg.vf → (t.v x).toNat = ((s.v x).toNat + 256 - (s.v y).toNat) % 256) ∧
      (∀ r, r ≠ x → r ≠ Reg.vf → t.v r = s.v r) ∧ t = { s with regs := t.regs }) ∧
    (∃ t, exec (.subn x y) s = .next t ∧
      (t.v Reg.vf).toNat = (if (s.v x).toNat < (s.v y).toNat then 1 else 0) ∧
      (x ≠ Reg.vf → (t.v x).toNat = ((s.v y).toNat + 256 - (s.v x).toNat) % 256) ∧
      (∀ r, r ≠ x → r ≠ Reg.vf → t.v r = s.v r) ∧ t = { s with regs := t.regs })

/-- R108, R110: both shifts take `V[Y]`, move it by one place, and put its bit 0 into `VF`; the flag wins when X = F. -/
def Obligations.ShiftsMoveVYAndFlagItsLowBit : Prop :=
  decodesAs 0xF00F 0x8006 (fun w => .shr (fieldX w) (fieldY w)) ∧
  decodesAs 0xF00F 0x800E (fun w => .shl (fieldX w) (fieldY w)) ∧
  ∀ (s : State) (x y : Reg),
    (∃ t, exec (.shr x y) s = .next t ∧
      (t.v Reg.vf).toNat = (s.v y).toNat % 2 ∧ (x ≠ Reg.vf → (t.v x).toNat = (s.v y).toNat / 2) ∧
      (∀ r, r ≠ x → r ≠ Reg.vf → t.v r = s.v r) ∧ t = { s with regs := t.regs }) ∧
    (∃ t, exec (.shl x y) s = .next t ∧
      (t.v Reg.vf).toNat = (s.v y).toNat % 2 ∧ (x ≠ Reg.vf → (t.v x).toNat = (s.v y).toNat * 2 % 256) ∧
      (∀ r, r ≠ x → r ≠ Reg.vf → t.v r = s.v r) ∧ t = { s with regs := t.regs })

/-- `CXNN` writes a free byte masked by NN and takes one draw; every bit outside NN is 0 (R111; the free value by the
spec's D16, log 3). Nothing is said of the byte. -/
def Obligations.RandomByteIsMasked : Prop :=
  decodesAs 0xF000 0xC000 (fun w => .rnd (fieldX w) (fieldNN w)) ∧
  ∀ (s : State) (x : Reg) (nn : Byte), ∃ t, exec (.rnd x nn) s = .next t ∧
    t.v x = randomByte s.draws &&& nn ∧ (∀ i < 8, nn.getLsbD i = false → (t.v x).getLsbD i = false) ∧
    t.draws = s.draws + 1 ∧ (∀ r, r ≠ x → t.v r = s.v r) ∧ t = { s with regs := t.regs, draws := t.draws }

/-- R11 (its list of six is the spec's inference): the six flag-writing instructions leave 0 or 1 in `VF` when they
do not fault, whatever X is; any other instruction changes `VF` only as the register it names as destination. -/
def Obligations.VFIsAFlagOfSixInstructions : Prop :=
  ∀ (i : Instr) (s t : State), s.fault = .none → exec i s = .next t →
    (writesFlag i → t.fault = .none → t.v Reg.vf = 0 ∨ t.v Reg.vf = 1) ∧
    (¬ writesFlag i → t.v Reg.vf ≠ s.v Reg.vf → writesV i Reg.vf)

/-! ## Index register and memory -/

/-- R120: `ANNN` sets `I` to NNN, and nothing else. -/
def Obligations.LoadIndexSetsI : Prop :=
  decodesAs 0xF000 0xA000 (fun w => .ldI (fieldNNN w)) ∧
  ∀ (s : State) (nnn : BitVec 12), ∃ t, exec (.ldI nnn) s = .next t ∧
    t.index.toNat = nnn.toNat ∧ t = { s with index := t.index }

/-- `FX1E` adds `V[X]` to `I` modulo 65536 and writes no flag (R121; the wrap and `VF` by the spec's D9, log 19). -/
def Obligations.AddIndexWrapsWithoutFlag : Prop :=
  decodesAs 0xF0FF 0xF01E (fun w => .addI (fieldX w)) ∧
  ∀ (s : State) (x : Reg), ∃ t, exec (.addI x) s = .next t ∧
    t.index.toNat = (s.index.toNat + (s.v x).toNat) % 65536 ∧ t = { s with index := t.index }

/-- `FX29` points `I` at the glyph of the low nibble of `V[X]`: FONT_BASE + 5 · digit (R122; the low nibble by the
spec's D11, log 21; FONT_BASE a parameter, log 1). -/
def Obligations.GlyphAddressFromLowNibble : Prop :=
  decodesAs 0xF0FF 0xF029 (fun w => .ldF (fieldX w)) ∧
  ∀ (s : State) (x : Reg), s.params.valid → ∃ t, exec (.ldF x) s = .next t ∧
    t.index.toNat = s.params.fontBase + 5 * ((s.v x).toNat % 16) ∧ t = { s with index := t.index }

/-- `FX33` stores the hundreds, tens and ones of `V[X]` at `I`, `I + 1`, `I + 2` and changes no other byte (R123; the
order by the spec's D18, log 28); past 0xFFF it faults with no byte written (the spec's D6, D7,
D8, log 16). -/
def Obligations.StoreDecimalDigits : Prop :=
  decodesAs 0xF0FF 0xF033 (fun w => .ldB (fieldX w)) ∧
  ∀ (s : State) (x : Reg), Memory.wf s.params s.mem →
    (s.index.toNat ≤ 0xFFD → ∃ t, exec (.ldB x) s = .next t ∧
      (t.byteAt (s.ea 0)).toNat = (s.v x).toNat / 100 ∧
      (t.byteAt (s.ea 1)).toNat = (s.v x).toNat / 10 % 10 ∧
      (t.byteAt (s.ea 2)).toNat = (s.v x).toNat % 10 ∧
      (∀ a, a < s.ea 0 ∨ s.ea 2 < a → t.byteAt a = s.byteAt a) ∧ t = { s with mem := t.mem }) ∧
    (0xFFD < s.index.toNat → exec (.ldB x) s = .next
      { s with pc := s.pc - 2, fault := .memoryOutOfRange,
               faultInfo := if s.index.toNat < 0x1000 then 0x1000 else s.index })

/-- `FX55` stores `V[0]` to `V[X]` at `I` to `I + X`, changes no other byte and not `I` (R124; `I` by the spec's D10,
log 20); past 0xFFF it faults with nothing stored (the spec's D6, D7,
D8, log 16). -/
def Obligations.StoreRegistersBlock : Prop :=
  decodesAs 0xF0FF 0xF055 (fun w => .stRegs (fieldX w)) ∧
  ∀ (s : State) (x : Reg), Memory.wf s.params s.mem →
    (s.index.toNat + x.val ≤ 0xFFF → ∃ t, exec (.stRegs x) s = .next t ∧
      (∀ r : Reg, r ≤ x → t.byteAt (s.ea r.val) = s.v r) ∧
      (∀ a, a < s.ea 0 ∨ s.ea x.val < a → t.byteAt a = s.byteAt a) ∧ t = { s with mem := t.mem }) ∧
    (0xFFF < s.index.toNat + x.val → exec (.stRegs x) s = .next
      { s with pc := s.pc - 2, fault := .memoryOutOfRange,
               faultInfo := if s.index.toNat < 0x1000 then 0x1000 else s.index })

/-- `FX65` loads `V[0]` to `V[X]` from `I` to `I + X`, changes no other register, no byte and not `I` (R125; `I` by the
spec's D10, log 20); past 0xFFF it faults with nothing loaded (the spec's D6, D7,
D8, log 16). -/
def Obligations.LoadRegistersBlock : Prop :=
  decodesAs 0xF0FF 0xF065 (fun w => .ldRegs (fieldX w)) ∧
  ∀ (s : State) (x : Reg),
    (s.index.toNat + x.val ≤ 0xFFF → ∃ t, exec (.ldRegs x) s = .next t ∧
      (∀ r : Reg, r ≤ x → t.v r = s.byteAt (s.ea r.val)) ∧ (∀ r : Reg, x < r → t.v r = s.v r) ∧
      (∀ a, t.byteAt a = s.byteAt a) ∧ t = { s with regs := t.regs }) ∧
    (0xFFF < s.index.toNat + x.val → exec (.ldRegs x) s = .next
      { s with pc := s.pc - 2, fault := .memoryOutOfRange,
               faultInfo := if s.index.toNat < 0x1000 then 0x1000 else s.index })

/-- Code stored over the next instruction is executed as stored (R51, the spec's inference; R124): after `FX55` with `I`
at the next instruction, the word fetched there is `V0 ‖ V1`. -/
def Obligations.StoredCodeIsFetchedNext : Prop :=
  ∀ (s : State) (x : Reg), Memory.wf s.params s.mem → 1 ≤ x.val → s.index = s.pc →
    s.index.toNat + x.val ≤ 0xFFF →
    ∃ t, exec (.stRegs x) s = .next t ∧
      ∀ w : Word, w.toNat = (s.v 0).toNat * 256 + (s.v 1).toNat →
        cycle t = exec (decodeWord w) { t with pc := s.pc + 2 }

/-- Memory is plain storage in one canonical form (log 5): memories that read alike at every address are equal. -/
def Obligations.MemoriesThatReadAlikeAreEqual : Prop :=
  ∀ (p : Params) (m m' : Memory), Memory.wf p m → Memory.wf p m' →
    (∀ a, Memory.read p m a = Memory.read p m' a) → m = m'

/-! ## Display -/

/-- R140: `00E0` turns every cell off and changes nothing else. -/
def Obligations.ClearTurnsEveryCellOff : Prop :=
  decodesAs 0xFFFF 0x00E0 (fun _ => .cls) ∧
  ∀ s : State, ∃ t, exec .cls s = .next t ∧
    (∀ y x, y < 32 → x < 64 → t.fb.cell y x = false) ∧ t = { s with fb := t.fb }

/-- `DXYN` toggles exactly the cells of the grid on which a 1 bit of the sprite falls, and `VF` is 1 exactly when one of
them was on (R141, R142; bit order and range check by the spec's D17, D19, logs 27, 29); out of range it faults with
nothing drawn (the spec's D6, D7, D8, log 16). -/
def Obligations.DrawTogglesTheSpriteCells : Prop :=
  decodesAs 0xF000 0xD000 (fun w => .drw (fieldX w) (fieldY w) (fieldN w)) ∧
  ∀ (s : State) (x y : Reg) (n : BitVec 4),
    (n = 0 ∨ s.index.toNat + n.toNat - 1 ≤ 0xFFF → ∃ t, exec (.drw x y n) s = .next t ∧
      (∀ row column, row < 32 → column < 64 →
        (t.fb.cell row column ≠ s.fb.cell row column ↔ s.spriteBit x y n row column)) ∧
      ((∃ row column, row < 32 ∧ column < 64 ∧ s.spriteBit x y n row column ∧ s.fb.cell row column = true) →
        t.v Reg.vf = 1) ∧
      ((¬ ∃ row column, row < 32 ∧ column < 64 ∧ s.spriteBit x y n row column ∧ s.fb.cell row column = true) →
        t.v Reg.vf = 0) ∧
      (∀ r, r ≠ Reg.vf → t.v r = s.v r) ∧ (∀ a, t.byteAt a = s.byteAt a) ∧
      t = { s with fb := t.fb, regs := t.regs }) ∧
    (n ≠ 0 → 0xFFF < s.index.toNat + n.toNat - 1 → exec (.drw x y n) s = .next
      { s with pc := s.pc - 2, fault := .memoryOutOfRange,
               faultInfo := if s.index.toNat < 0x1000 then 0x1000 else s.index })

/-- Drawing the same sprite twice at the same place leaves the framebuffer as it was (R141, 95_test_vectors.md S4; bit order and
range check by the spec's D17, D19, logs 27, 29); the place must not depend on `VF`, which the first draw writes. -/
def Obligations.DrawingTwiceErases : Prop :=
  ∀ (s t u : State) (x y : Reg) (n : BitVec 4), x ≠ Reg.vf → y ≠ Reg.vf →
    n = 0 ∨ s.index.toNat + n.toNat - 1 ≤ 0xFFF →
    exec (.drw x y n) s = .next t → exec (.drw x y n) t = .next u → u.fb = s.fb

/-! ## Keys and timers -/

/-- `EX9E` skips when `V[X]` names a key that is down, `EXA1` when not; a number above 15 names no key, which is never
down (R150, R151; the spec's D12, log 22). -/
def Obligations.KeySkips : Prop :=
  decodesAs 0xF0FF 0xE09E (fun w => .skp (fieldX w)) ∧ decodesAs 0xF0FF 0xE0A1 (fun w => .sknp (fieldX w)) ∧
  ∀ (s : State) (x : Reg),
    (∀ k : Key, (s.v x).toNat = k.val →
      exec (.skp x) s = .next (if s.keys.get k = true then { s with pc := s.pc + 2 } else s) ∧
      exec (.sknp x) s = .next (if s.keys.get k = true then s else { s with pc := s.pc + 2 })) ∧
    (15 < (s.v x).toNat →
      exec (.skp x) s = .next s ∧ exec (.sknp x) s = .next { s with pc := s.pc + 2 })

/-- `FX0A` with some key down loads `lastKey` (R152; the spec's D15, log 25); with none the whole cycle leaves the state
as it was. -/
def Obligations.KeyWaitBlocksOrLoadsLastKey : Prop :=
  decodesAs 0xF0FF 0xF00A (fun w => .ldVxK (fieldX w)) ∧
  ∀ (s : State) (x : Reg),
    ((∃ k : Key, s.keys.get k = true) → ∃ t, exec (.ldVxK x) s = .next t ∧
      (t.v x).toNat = s.lastKey.val ∧ (∀ r, r ≠ x → t.v r = s.v r) ∧ t = { s with regs := t.regs }) ∧
    ((∀ k : Key, s.keys.get k = false) →
      exec (.ldVxK x) s = .next { s with pc := s.pc - 2 } ∧
      (s.pc.toNat ≤ 0xFFE → decodeWord (s.wordAt s.pc.toNat) = .ldVxK x → cycle s = .next s))

/-- R153, R154, R155: `FX07` reads `DT` into `V[X]`; `FX15` and `FX18` set `DT` and `ST` from `V[X]`. -/
def Obligations.TimerInstructionsMoveTheTimers : Prop :=
  decodesAs 0xF0FF 0xF007 (fun w => .ldVxDt (fieldX w)) ∧
  decodesAs 0xF0FF 0xF015 (fun w => .ldDtVx (fieldX w)) ∧
  decodesAs 0xF0FF 0xF018 (fun w => .ldStVx (fieldX w)) ∧
  ∀ (s : State) (x : Reg),
    (∃ t, exec (.ldVxDt x) s = .next t ∧ t.v x = s.dt ∧
      (∀ r, r ≠ x → t.v r = s.v r) ∧ t = { s with regs := t.regs }) ∧
    exec (.ldDtVx x) s = .next { s with dt := s.v x } ∧
    exec (.ldStVx x) s = .next { s with st := s.v x }

/-! ## Whole-machine rules -/

/-- R23 (its column "written by"): in an execution that does not fault, each piece of state changes only by the
instructions that the table gives it, and no instruction changes the key latches, `lastKey`, `paused`, the
accumulators, the parameters or the schedule. -/
def Obligations.StateIsWrittenOnlyByItsInstructions : Prop :=
  ∀ (i : Instr) (s t : State), exec i s = .next t →
    (∀ r, ¬ writesV i r → t.v r = s.v r) ∧
    (t.index ≠ s.index → (∃ nnn, i = .ldI nnn) ∨ (∃ x, i = .addI x) ∨ ∃ x, i = .ldF x) ∧
    (t.sp ≠ s.sp → i = .ret ∨ ∃ nnn, i = .call nnn) ∧
    (t.stack ≠ s.stack → ∃ nnn, i = .call nnn) ∧
    (t.dt ≠ s.dt → ∃ x, i = .ldDtVx x) ∧ (t.st ≠ s.st → ∃ x, i = .ldStVx x) ∧
    (t.fb ≠ s.fb → i = .cls ∨ ∃ x y n, i = .drw x y n) ∧
    ((∃ a, t.byteAt a ≠ s.byteAt a) → (∃ x, i = .ldB x) ∨ ∃ x, i = .stRegs x) ∧
    (t.draws ≠ s.draws → ∃ x nn, i = .rnd x nn) ∧
    t = { t with keys := s.keys, lastKey := s.lastKey, paused := s.paused, tickAcc := s.tickAcc,
                 cycleAcc := s.cycleAcc, params := s.params, schedule := s.schedule }

/-- R89 (the spec's inference): only the jumps, call, return, the skips and a waiting `FX0A` leave `pc` elsewhere than at
the following instruction, unless the instruction faults. -/
def Obligations.OnlyControlTransfersMovePc : Prop :=
  ∀ (i : Instr) (s t : State), s.fault = .none → exec i s = .next t → t.pc ≠ s.pc → t.fault = .none →
    i = .ret ∨ (∃ nnn, i = .jp nnn ∨ i = .call nnn ∨ i = .jpV0 nnn) ∨
    (t.pc = s.pc + 2 ∧ ((∃ x nn, i = .seImm x nn ∨ i = .sneImm x nn) ∨
      (∃ x y n, i = .seReg x y n ∨ i = .sneReg x y n) ∨ ∃ x, i = .skp x ∨ i = .sknp x)) ∨
    (t.pc = s.pc - 2 ∧ ∃ x, i = .ldVxK x ∧ ∀ k : Key, s.keys.get k = false)

/-- The values after reset: `pc`, the font (the source's) and the values the spec decides (R24; the spec's D5, log 15).
Nothing is said of the stack entries and `lastKey`, which are unspecified (log 4). -/
def Obligations.ResetStateIsAsTabled : Prop :=
  State.reset.pc = 0x200 ∧
  (∀ j < 80, State.reset.byteAt (State.reset.params.fontBase + j) = State.reset.params.font.getD j 0) ∧
  (∀ a, a < State.reset.params.fontBase ∨ State.reset.params.fontBase + 80 ≤ a → State.reset.byteAt a = 0) ∧
  (∀ r, State.reset.v r = 0) ∧ State.reset.index = 0 ∧ State.reset.sp = 0 ∧
  State.reset.dt = 0 ∧ State.reset.st = 0 ∧ (∀ k, State.reset.keys.get k = false) ∧
  (∀ y x, y < 32 → x < 64 → State.reset.fb.cell y x = false) ∧ State.reset.paused = false ∧
  State.reset.fault = .none ∧ State.reset.faultInfo = 0 ∧ State.reset.tickAcc = 0 ∧ State.reset.cycleAcc = 0

/-- The invariant holds right after reset. -/
def Obligations.ResetStateMeetsTheInvariant : Prop := State.reset.Inv

/-- Every step keeps the invariant: memory canonical, `sp` in bounds, return addresses at most 0x1000, `pc` at most
0x10FE (R90, the spec's inference), the accumulators in [0, 1) (R22), no fault information without a fault. -/
def Obligations.EveryStepKeepsTheInvariant : Prop :=
  ∀ s t : State, s.Inv → step s = .next t → t.Inv

/-- Every step keeps memory in its canonical form, with no other premise. -/
def Obligations.EveryStepKeepsMemoryCanonical : Prop :=
  ∀ s t : State, Memory.wf s.params s.mem → step s = .next t → Memory.wf t.params t.mem

/-- A step is refused only for a negative elapsed time, and stops only when the machine is halted and nothing is
scheduled; every other step answers a next state (U20, R171; logs 6, 8). No instruction stops a step. -/
def Obligations.StepsStopOnlyWhenHaltedOrNegative : Prop :=
  ∀ s : State,
    (∃ t, step s = .next t) ∨
    (s.schedule = [] ∧ s.fault ≠ .none ∧ step s = .fault (.halted s.fault s.faultInfo)) ∨
    (∃ e rest, e < 0 ∧ s.schedule = .advance e :: rest ∧ step s = .refused .negativeElapsed)

/-- A halted machine performs no cycle, tick or advance, scheduled or in the core's own turn, and only a load clears its
latches (R171, R172; the spec's D6, log 16; that the core's own turn then stops with the latches is the model's choice,
log 6). -/
def Obligations.HaltedMachineOnlyLoadRevives : Prop :=
  ∀ (s : State) (rest : List Move), s.fault ≠ .none →
    (s.schedule = [] → step s = .fault (.halted s.fault s.faultInfo)) ∧
    step { s with schedule := .cycle :: rest } = .next { s with schedule := rest } ∧
    step { s with schedule := .tick :: rest } = .next { s with schedule := rest } ∧
    (∀ e : ℚ, 0 ≤ e → step { s with schedule := .advance e :: rest } = .next { s with schedule := rest }) ∧
    ∀ (m : Move) (t : State), step { s with schedule := m :: rest } = .next t →
      (∀ program, m ≠ .load program) → t.fault = s.fault ∧ t.faultInfo = s.faultInfo ∧ t.pc = s.pc

/-- A paused machine performs no cycle, tick or advance, scheduled or in the core's own turn, elapsed time is dropped, and
a second toggle ends the pause with nothing lost (R178, R80; the spec's D21, log 31; that a step with nothing scheduled
then leaves the state as it is, is the model's choice, log 6). -/
def Obligations.PausedMachineWaits : Prop :=
  ∀ (s : State) (rest : List Move), s.paused = true →
    (s.fault = .none → s.schedule = [] → step s = .next s) ∧
    step { s with schedule := .cycle :: rest } = .next { s with schedule := rest } ∧
    step { s with schedule := .tick :: rest } = .next { s with schedule := rest } ∧
    (∀ e : ℚ, 0 ≤ e → step { s with schedule := .advance e :: rest } = .next { s with schedule := rest }) ∧
    step { s with schedule := .togglePause :: rest } = .next { s with schedule := rest, paused := false } ∧
    step { s with schedule := .togglePause :: rest, paused := false } = .next { s with schedule := rest }

/-- Key events set and clear one latch; a key-down sets `lastKey`, a key-up does not (R176, R177; the spec's D15,
log 25). -/
def Obligations.KeyEventsSetOneLatch : Prop :=
  ∀ (s : State) (k : Key) (rest : List Move),
    (∃ t, step { s with schedule := .keyDown k :: rest } = .next t ∧ t.keys.get k = true ∧
      (∀ j, j ≠ k → t.keys.get j = s.keys.get j) ∧ t.lastKey = k ∧
      t = { s with schedule := rest, keys := t.keys, lastKey := t.lastKey }) ∧
    (∃ t, step { s with schedule := .keyUp k :: rest } = .next t ∧ t.keys.get k = false ∧
      (∀ j, j ≠ k → t.keys.get j = s.keys.get j) ∧ t = { s with schedule := rest, keys := t.keys })

/-- n ticks lower each timer by n, clamped at 0, and change nothing else (R179; that n single ticks and one
subtraction of n agree is the spec's D27, log 35), and a scheduled tick of a running machine is one of them (R189; the
schedule is the model's choice, log 2). -/
def Obligations.TicksLowerTheTimersClamped : Prop :=
  (∀ (n : Nat) (s : State),
    (ticks n s).dt.toNat = s.dt.toNat - n ∧ (ticks n s).st.toNat = s.st.toNat - n ∧
    ticks n s = { s with dt := (ticks n s).dt, st := (ticks n s).st }) ∧
  ∀ (s : State) (rest : List Move), s.running = true → s.schedule = .tick :: rest →
    step s = .next (ticks 1 { s with schedule := rest })

/-- An advance of a running machine does all its whole tick periods and then all its whole cycle periods, and keeps the
fractions (R180; exact arithmetic by the spec's D20, log 30). The cycles run one after another until a fault, which
abandons the rest (R180, R171; the spec's D6, log 16). A scheduled advance is such an advance (the schedule is the
model's choice, log 2). -/
def Obligations.AdvanceDoesTicksThenCycles : Prop :=
  (∀ (s : State) (e : ℚ) (n m : Nat) (a b : ℚ), s.running = true → 0 ≤ e →
    s.tickAcc + e * 60 / 1000 = n + a → 0 ≤ a → a < 1 →
    s.cycleAcc + e * s.params.cycleHz / 1000 = m + b → 0 ≤ b → b < 1 →
    advance e s = cycles m (ticks n { s with tickAcc := a, cycleAcc := b }) ∧
    ∀ rest, step { s with schedule := .advance e :: rest } =
      cycles m (ticks n { s with schedule := rest, tickAcc := a, cycleAcc := b })) ∧
  (∀ s : State, cycles 0 s = .next s) ∧
  (∀ (m : Nat) (s t : State), s.fault = .none → cycle s = .next t → cycles (m + 1) s = cycles m t) ∧
  ∀ (m : Nat) (s : State), s.fault ≠ .none → cycles m s = .next s

/-- An advance by exactly k cycle periods, with no residual before, does exactly k cycles and leaves none (95_test_vectors.md S6;
exact arithmetic by the spec's D20, log 30). -/
def Obligations.ExactPeriodsLeaveNoResidual : Prop :=
  ∀ (s : State) (k : Nat), s.running = true → 0 < s.params.cycleHz → 0 ≤ s.tickAcc → s.cycleAcc = 0 →
    ∃ (n : Nat) (a : ℚ), 0 ≤ a ∧ a < 1 ∧
      s.tickAcc + (k * 1000 / s.params.cycleHz) * 60 / 1000 = n + a ∧
      advance (k * 1000 / s.params.cycleHz) s = cycles k (ticks n { s with tickAcc := a, cycleAcc := 0 })

/-- No time is lost or counted twice: two advances leave the residuals of one advance by their sum
(95_test_vectors.md S6; exact arithmetic by the spec's D20, log 30). -/
def Obligations.SplitAdvancesLoseNoTime : Prop :=
  ∀ (s t u w : State) (x y : ℚ), s.running = true → t.running = true →
    0 < s.params.cycleHz → 0 ≤ s.tickAcc → 0 ≤ s.cycleAcc → 0 ≤ x → 0 ≤ y →
    advance x s = .next t → advance y t = .next u → advance (x + y) s = .next w →
    u.tickAcc = w.tickAcc ∧ u.cycleAcc = w.cycleAcc ∧
    wholePeriods (s.cycleTotal x) + wholePeriods (t.cycleTotal y) = wholePeriods (s.cycleTotal (x + y)) ∧
    wholePeriods (s.tickTotal x) + wholePeriods (t.tickTotal y) = wholePeriods (s.tickTotal (x + y))

/-- A load of at most 3584 bytes puts the program at 0x200 and the font in its place, and gives every other piece of
state its reset value; a longer one fails and changes nothing (R200, R201; the spec's D5, D26, logs 15, 33). Nothing is
said of the stack entries and `lastKey` (log 4). -/
def Obligations.LoadPlacesTheProgramOrFails : Prop :=
  ∀ (s : State) (program : List Byte) (rest : List Move),
    (program.length ≤ 3584 → ∃ t, step { s with schedule := .load program :: rest } = .next t ∧
      (∀ (k : Nat) (h : k < program.length), t.byteAt (0x200 + k) = program[k]) ∧
      (∀ a, a < 0x200 ∨ 0x200 + program.length ≤ a →
        t.byteAt a = if s.params.fontBase ≤ a ∧ a < s.params.fontBase + 80
          then s.params.font.getD (a - s.params.fontBase) 0 else 0) ∧
      t.pc = 0x200 ∧ (∀ r, t.v r = 0) ∧ t.index = 0 ∧ t.sp = 0 ∧ t.dt = 0 ∧ t.st = 0 ∧
      (∀ k, t.keys.get k = false) ∧ (∀ y x, y < 32 → x < 64 → t.fb.cell y x = false) ∧
      t.paused = false ∧ t.fault = .none ∧ t.faultInfo = 0 ∧ t.tickAcc = 0 ∧ t.cycleAcc = 0 ∧
      t.params = s.params ∧ t.schedule = rest) ∧
    (3584 < program.length → loadProgram program s = .error .romTooLarge ∧
      step { s with schedule := .load program :: rest } = .next { s with schedule := rest })

/-- A machine that is not halted goes on: unless its schedule begins with an advance by a negative time, its step answers a
next state (R80, R180; log 8). The latch is set there exactly when a cycle that the step performs meets the fault condition
of its fetch or of its word, and then that cycle has changed the two latches alone (R170, R171; the spec's D6, D7, D8,
log 16; which cycles a step performs rests on the schedule, log 2). -/
def Obligations.RunningStepsGoOnAndFaultAsTabled : Prop :=
  ∀ s : State, s.fault = .none → (∀ e rest, s.schedule = .advance e :: rest → 0 ≤ e) →
    ∃ t, step s = .next t ∧
      (∀ (u : State) (cause : FaultCause) (info : Word), s.performsCycleAt u →
        faultOfCycle u = some (cause, info) → t = { u with fault := cause, faultInfo := info }) ∧
      (t.fault ≠ .none → ∃ u, s.performsCycleAt u ∧ faultOfCycle u = some (t.fault, t.faultInfo))

/-- The fault port shows the code of R170 and the information; reading any port gives the latch itself (R183, R185; the
codes by the spec's D7, log 16). -/
def Obligations.PortsShowTheLatches : Prop :=
  ∀ s : State, readSound s = s.st ∧ readFramebuffer s = s.fb ∧ (readFault s).2 = s.faultInfo ∧
    ((readFault s).1.toNat = match s.fault with
      | .none => 0 | .stackUnderflow => 1 | .stackOverflow => 2 | .memoryOutOfRange => 3)

/-- A stack entry not in use is unobservable (R14, the spec's inference): states that differ only in such entries step
alike, and still differ only in such entries. -/
def Obligations.UnusedStackEntriesAreUnobservable : Prop :=
  ∀ s t : State, sameBelowSp s t →
    (∀ s', step s = .next s' → ∃ t', step t = .next t' ∧ sameBelowSp s' t') ∧
    (∀ f, step s = .fault f → step t = .fault f) ∧ (∀ r, step s = .refused r → step t = .refused r)

/-- `lastKey` is unobservable while no key is down (R24, R152, the spec's inference): states that differ only in it step
alike, to states that differ at most in it, with no key down if they do differ. -/
def Obligations.LastKeyIsUnobservableWithNoKeyDown : Prop :=
  ∀ (s s' : State) (k : Key), (∀ j, s.keys.get j = false) → step s = .next s' →
    ∃ t', step { s with lastKey := k } = .next t' ∧
      (t' = s' ∨ (t' = { s' with lastKey := k } ∧ ∀ j, s'.keys.get j = false))

/-- An ended run stays where it is under every further cycle (R203; the spec's D23, log 34). -/
def Obligations.EndedRunStaysPut : Prop :=
  ∀ (s : State) (n : Nat), s.ended → cycles n s = .next s
end

