-- ==== Sys2Proof/Laws/State.lean ====
section
/-! SUPPORT. One lemma per field per named update of the state, so that no proof unfolds a record update. -/

namespace Sys2Proof.Machine

variable (s : State)

/-! `State.setV` -/

@[simp] theorem State.setV_params (x : Reg) (b : Byte) : (s.setV x b).params = s.params := rfl
@[simp] theorem State.setV_regs (x : Reg) (b : Byte) : (s.setV x b).regs = s.regs.set x.val b x.isLt := rfl
@[simp] theorem State.setV_index (x : Reg) (b : Byte) : (s.setV x b).index = s.index := rfl
@[simp] theorem State.setV_pc (x : Reg) (b : Byte) : (s.setV x b).pc = s.pc := rfl
@[simp] theorem State.setV_stack (x : Reg) (b : Byte) : (s.setV x b).stack = s.stack := rfl
@[simp] theorem State.setV_sp (x : Reg) (b : Byte) : (s.setV x b).sp = s.sp := rfl
@[simp] theorem State.setV_dt (x : Reg) (b : Byte) : (s.setV x b).dt = s.dt := rfl
@[simp] theorem State.setV_st (x : Reg) (b : Byte) : (s.setV x b).st = s.st := rfl
@[simp] theorem State.setV_keys (x : Reg) (b : Byte) : (s.setV x b).keys = s.keys := rfl
@[simp] theorem State.setV_lastKey (x : Reg) (b : Byte) : (s.setV x b).lastKey = s.lastKey := rfl
@[simp] theorem State.setV_fb (x : Reg) (b : Byte) : (s.setV x b).fb = s.fb := rfl
@[simp] theorem State.setV_mem (x : Reg) (b : Byte) : (s.setV x b).mem = s.mem := rfl
@[simp] theorem State.setV_paused (x : Reg) (b : Byte) : (s.setV x b).paused = s.paused := rfl
@[simp] theorem State.setV_fault (x : Reg) (b : Byte) : (s.setV x b).fault = s.fault := rfl
@[simp] theorem State.setV_faultInfo (x : Reg) (b : Byte) : (s.setV x b).faultInfo = s.faultInfo := rfl
@[simp] theorem State.setV_tickAcc (x : Reg) (b : Byte) : (s.setV x b).tickAcc = s.tickAcc := rfl
@[simp] theorem State.setV_cycleAcc (x : Reg) (b : Byte) : (s.setV x b).cycleAcc = s.cycleAcc := rfl
@[simp] theorem State.setV_draws (x : Reg) (b : Byte) : (s.setV x b).draws = s.draws := rfl
@[simp] theorem State.setV_schedule (x : Reg) (b : Byte) : (s.setV x b).schedule = s.schedule := rfl

/-! `State.setVThenFlag` -/

@[simp] theorem State.setVThenFlag_params (x : Reg) (r f : Byte) : (s.setVThenFlag x r f).params = s.params := rfl
@[simp] theorem State.setVThenFlag_regs (x : Reg) (r f : Byte) : (s.setVThenFlag x r f).regs = (s.regs.set x.val r x.isLt).set Reg.vf.val f Reg.vf.isLt := rfl
@[simp] theorem State.setVThenFlag_index (x : Reg) (r f : Byte) : (s.setVThenFlag x r f).index = s.index := rfl
@[simp] theorem State.setVThenFlag_pc (x : Reg) (r f : Byte) : (s.setVThenFlag x r f).pc = s.pc := rfl
@[simp] theorem State.setVThenFlag_stack (x : Reg) (r f : Byte) : (s.setVThenFlag x r f).stack = s.stack := rfl
@[simp] theorem State.setVThenFlag_sp (x : Reg) (r f : Byte) : (s.setVThenFlag x r f).sp = s.sp := rfl
@[simp] theorem State.setVThenFlag_dt (x : Reg) (r f : Byte) : (s.setVThenFlag x r f).dt = s.dt := rfl
@[simp] theorem State.setVThenFlag_st (x : Reg) (r f : Byte) : (s.setVThenFlag x r f).st = s.st := rfl
@[simp] theorem State.setVThenFlag_keys (x : Reg) (r f : Byte) : (s.setVThenFlag x r f).keys = s.keys := rfl
@[simp] theorem State.setVThenFlag_lastKey (x : Reg) (r f : Byte) : (s.setVThenFlag x r f).lastKey = s.lastKey := rfl
@[simp] theorem State.setVThenFlag_fb (x : Reg) (r f : Byte) : (s.setVThenFlag x r f).fb = s.fb := rfl
@[simp] theorem State.setVThenFlag_mem (x : Reg) (r f : Byte) : (s.setVThenFlag x r f).mem = s.mem := rfl
@[simp] theorem State.setVThenFlag_paused (x : Reg) (r f : Byte) : (s.setVThenFlag x r f).paused = s.paused := rfl
@[simp] theorem State.setVThenFlag_fault (x : Reg) (r f : Byte) : (s.setVThenFlag x r f).fault = s.fault := rfl
@[simp] theorem State.setVThenFlag_faultInfo (x : Reg) (r f : Byte) : (s.setVThenFlag x r f).faultInfo = s.faultInfo := rfl
@[simp] theorem State.setVThenFlag_tickAcc (x : Reg) (r f : Byte) : (s.setVThenFlag x r f).tickAcc = s.tickAcc := rfl
@[simp] theorem State.setVThenFlag_cycleAcc (x : Reg) (r f : Byte) : (s.setVThenFlag x r f).cycleAcc = s.cycleAcc := rfl
@[simp] theorem State.setVThenFlag_draws (x : Reg) (r f : Byte) : (s.setVThenFlag x r f).draws = s.draws := rfl
@[simp] theorem State.setVThenFlag_schedule (x : Reg) (r f : Byte) : (s.setVThenFlag x r f).schedule = s.schedule := rfl

/-! `State.storeBytes` -/

@[simp] theorem State.storeBytes_params (a : Nat) (bs : List Byte) : (s.storeBytes a bs).params = s.params := rfl
@[simp] theorem State.storeBytes_regs (a : Nat) (bs : List Byte) : (s.storeBytes a bs).regs = s.regs := rfl
@[simp] theorem State.storeBytes_index (a : Nat) (bs : List Byte) : (s.storeBytes a bs).index = s.index := rfl
@[simp] theorem State.storeBytes_pc (a : Nat) (bs : List Byte) : (s.storeBytes a bs).pc = s.pc := rfl
@[simp] theorem State.storeBytes_stack (a : Nat) (bs : List Byte) : (s.storeBytes a bs).stack = s.stack := rfl
@[simp] theorem State.storeBytes_sp (a : Nat) (bs : List Byte) : (s.storeBytes a bs).sp = s.sp := rfl
@[simp] theorem State.storeBytes_dt (a : Nat) (bs : List Byte) : (s.storeBytes a bs).dt = s.dt := rfl
@[simp] theorem State.storeBytes_st (a : Nat) (bs : List Byte) : (s.storeBytes a bs).st = s.st := rfl
@[simp] theorem State.storeBytes_keys (a : Nat) (bs : List Byte) : (s.storeBytes a bs).keys = s.keys := rfl
@[simp] theorem State.storeBytes_lastKey (a : Nat) (bs : List Byte) : (s.storeBytes a bs).lastKey = s.lastKey := rfl
@[simp] theorem State.storeBytes_fb (a : Nat) (bs : List Byte) : (s.storeBytes a bs).fb = s.fb := rfl
@[simp] theorem State.storeBytes_mem (a : Nat) (bs : List Byte) : (s.storeBytes a bs).mem = Memory.writeBytes s.params s.mem a bs := rfl
@[simp] theorem State.storeBytes_paused (a : Nat) (bs : List Byte) : (s.storeBytes a bs).paused = s.paused := rfl
@[simp] theorem State.storeBytes_fault (a : Nat) (bs : List Byte) : (s.storeBytes a bs).fault = s.fault := rfl
@[simp] theorem State.storeBytes_faultInfo (a : Nat) (bs : List Byte) : (s.storeBytes a bs).faultInfo = s.faultInfo := rfl
@[simp] theorem State.storeBytes_tickAcc (a : Nat) (bs : List Byte) : (s.storeBytes a bs).tickAcc = s.tickAcc := rfl
@[simp] theorem State.storeBytes_cycleAcc (a : Nat) (bs : List Byte) : (s.storeBytes a bs).cycleAcc = s.cycleAcc := rfl
@[simp] theorem State.storeBytes_draws (a : Nat) (bs : List Byte) : (s.storeBytes a bs).draws = s.draws := rfl
@[simp] theorem State.storeBytes_schedule (a : Nat) (bs : List Byte) : (s.storeBytes a bs).schedule = s.schedule := rfl

/-! `State.push` -/

@[simp] theorem State.push_params (w : Word) : (s.push w).params = s.params := rfl
@[simp] theorem State.push_regs (w : Word) : (s.push w).regs = s.regs := rfl
@[simp] theorem State.push_index (w : Word) : (s.push w).index = s.index := rfl
@[simp] theorem State.push_pc (w : Word) : (s.push w).pc = s.pc := rfl
@[simp] theorem State.push_stack (w : Word) : (s.push w).stack = s.stack.set s.sp w := rfl
@[simp] theorem State.push_sp (w : Word) : (s.push w).sp = s.sp + 1 := rfl
@[simp] theorem State.push_dt (w : Word) : (s.push w).dt = s.dt := rfl
@[simp] theorem State.push_st (w : Word) : (s.push w).st = s.st := rfl
@[simp] theorem State.push_keys (w : Word) : (s.push w).keys = s.keys := rfl
@[simp] theorem State.push_lastKey (w : Word) : (s.push w).lastKey = s.lastKey := rfl
@[simp] theorem State.push_fb (w : Word) : (s.push w).fb = s.fb := rfl
@[simp] theorem State.push_mem (w : Word) : (s.push w).mem = s.mem := rfl
@[simp] theorem State.push_paused (w : Word) : (s.push w).paused = s.paused := rfl
@[simp] theorem State.push_fault (w : Word) : (s.push w).fault = s.fault := rfl
@[simp] theorem State.push_faultInfo (w : Word) : (s.push w).faultInfo = s.faultInfo := rfl
@[simp] theorem State.push_tickAcc (w : Word) : (s.push w).tickAcc = s.tickAcc := rfl
@[simp] theorem State.push_cycleAcc (w : Word) : (s.push w).cycleAcc = s.cycleAcc := rfl
@[simp] theorem State.push_draws (w : Word) : (s.push w).draws = s.draws := rfl
@[simp] theorem State.push_schedule (w : Word) : (s.push w).schedule = s.schedule := rfl

/-! `State.afterDraw` -/

@[simp] theorem State.afterDraw_params : (s.afterDraw).params = s.params := rfl
@[simp] theorem State.afterDraw_regs : (s.afterDraw).regs = s.regs := rfl
@[simp] theorem State.afterDraw_index : (s.afterDraw).index = s.index := rfl
@[simp] theorem State.afterDraw_pc : (s.afterDraw).pc = s.pc := rfl
@[simp] theorem State.afterDraw_stack : (s.afterDraw).stack = s.stack := rfl
@[simp] theorem State.afterDraw_sp : (s.afterDraw).sp = s.sp := rfl
@[simp] theorem State.afterDraw_dt : (s.afterDraw).dt = s.dt := rfl
@[simp] theorem State.afterDraw_st : (s.afterDraw).st = s.st := rfl
@[simp] theorem State.afterDraw_keys : (s.afterDraw).keys = s.keys := rfl
@[simp] theorem State.afterDraw_lastKey : (s.afterDraw).lastKey = s.lastKey := rfl
@[simp] theorem State.afterDraw_fb : (s.afterDraw).fb = s.fb := rfl
@[simp] theorem State.afterDraw_mem : (s.afterDraw).mem = s.mem := rfl
@[simp] theorem State.afterDraw_paused : (s.afterDraw).paused = s.paused := rfl
@[simp] theorem State.afterDraw_fault : (s.afterDraw).fault = s.fault := rfl
@[simp] theorem State.afterDraw_faultInfo : (s.afterDraw).faultInfo = s.faultInfo := rfl
@[simp] theorem State.afterDraw_tickAcc : (s.afterDraw).tickAcc = s.tickAcc := rfl
@[simp] theorem State.afterDraw_cycleAcc : (s.afterDraw).cycleAcc = s.cycleAcc := rfl
@[simp] theorem State.afterDraw_draws : (s.afterDraw).draws = s.draws + 1 := rfl
@[simp] theorem State.afterDraw_schedule : (s.afterDraw).schedule = s.schedule := rfl

/-! `State.faulted` -/

@[simp] theorem State.faulted_params (c : FaultCause) (w : Word) : (s.faulted c w).params = s.params := rfl
@[simp] theorem State.faulted_regs (c : FaultCause) (w : Word) : (s.faulted c w).regs = s.regs := rfl
@[simp] theorem State.faulted_index (c : FaultCause) (w : Word) : (s.faulted c w).index = s.index := rfl
@[simp] theorem State.faulted_pc (c : FaultCause) (w : Word) : (s.faulted c w).pc = s.pc - 2 := rfl
@[simp] theorem State.faulted_stack (c : FaultCause) (w : Word) : (s.faulted c w).stack = s.stack := rfl
@[simp] theorem State.faulted_sp (c : FaultCause) (w : Word) : (s.faulted c w).sp = s.sp := rfl
@[simp] theorem State.faulted_dt (c : FaultCause) (w : Word) : (s.faulted c w).dt = s.dt := rfl
@[simp] theorem State.faulted_st (c : FaultCause) (w : Word) : (s.faulted c w).st = s.st := rfl
@[simp] theorem State.faulted_keys (c : FaultCause) (w : Word) : (s.faulted c w).keys = s.keys := rfl
@[simp] theorem State.faulted_lastKey (c : FaultCause) (w : Word) : (s.faulted c w).lastKey = s.lastKey := rfl
@[simp] theorem State.faulted_fb (c : FaultCause) (w : Word) : (s.faulted c w).fb = s.fb := rfl
@[simp] theorem State.faulted_mem (c : FaultCause) (w : Word) : (s.faulted c w).mem = s.mem := rfl
@[simp] theorem State.faulted_paused (c : FaultCause) (w : Word) : (s.faulted c w).paused = s.paused := rfl
@[simp] theorem State.faulted_fault (c : FaultCause) (w : Word) : (s.faulted c w).fault = c := rfl
@[simp] theorem State.faulted_faultInfo (c : FaultCause) (w : Word) : (s.faulted c w).faultInfo = w := rfl
@[simp] theorem State.faulted_tickAcc (c : FaultCause) (w : Word) : (s.faulted c w).tickAcc = s.tickAcc := rfl
@[simp] theorem State.faulted_cycleAcc (c : FaultCause) (w : Word) : (s.faulted c w).cycleAcc = s.cycleAcc := rfl
@[simp] theorem State.faulted_draws (c : FaultCause) (w : Word) : (s.faulted c w).draws = s.draws := rfl
@[simp] theorem State.faulted_schedule (c : FaultCause) (w : Word) : (s.faulted c w).schedule = s.schedule := rfl

/-! `tick` -/

@[simp] theorem tick_params : (tick s).params = s.params := rfl
@[simp] theorem tick_regs : (tick s).regs = s.regs := rfl
@[simp] theorem tick_index : (tick s).index = s.index := rfl
@[simp] theorem tick_pc : (tick s).pc = s.pc := rfl
@[simp] theorem tick_stack : (tick s).stack = s.stack := rfl
@[simp] theorem tick_sp : (tick s).sp = s.sp := rfl
@[simp] theorem tick_dt : (tick s).dt = decrement s.dt := rfl
@[simp] theorem tick_st : (tick s).st = decrement s.st := rfl
@[simp] theorem tick_keys : (tick s).keys = s.keys := rfl
@[simp] theorem tick_lastKey : (tick s).lastKey = s.lastKey := rfl
@[simp] theorem tick_fb : (tick s).fb = s.fb := rfl
@[simp] theorem tick_mem : (tick s).mem = s.mem := rfl
@[simp] theorem tick_paused : (tick s).paused = s.paused := rfl
@[simp] theorem tick_fault : (tick s).fault = s.fault := rfl
@[simp] theorem tick_faultInfo : (tick s).faultInfo = s.faultInfo := rfl
@[simp] theorem tick_tickAcc : (tick s).tickAcc = s.tickAcc := rfl
@[simp] theorem tick_cycleAcc : (tick s).cycleAcc = s.cycleAcc := rfl
@[simp] theorem tick_draws : (tick s).draws = s.draws := rfl
@[simp] theorem tick_schedule : (tick s).schedule = s.schedule := rfl

/-! `keyDown` -/

@[simp] theorem keyDown_params (k : Key) : (keyDown k s).params = s.params := rfl
@[simp] theorem keyDown_regs (k : Key) : (keyDown k s).regs = s.regs := rfl
@[simp] theorem keyDown_index (k : Key) : (keyDown k s).index = s.index := rfl
@[simp] theorem keyDown_pc (k : Key) : (keyDown k s).pc = s.pc := rfl
@[simp] theorem keyDown_stack (k : Key) : (keyDown k s).stack = s.stack := rfl
@[simp] theorem keyDown_sp (k : Key) : (keyDown k s).sp = s.sp := rfl
@[simp] theorem keyDown_dt (k : Key) : (keyDown k s).dt = s.dt := rfl
@[simp] theorem keyDown_st (k : Key) : (keyDown k s).st = s.st := rfl
@[simp] theorem keyDown_keys (k : Key) : (keyDown k s).keys = s.keys.set k.val true k.isLt := rfl
@[simp] theorem keyDown_lastKey (k : Key) : (keyDown k s).lastKey = k := rfl
@[simp] theorem keyDown_fb (k : Key) : (keyDown k s).fb = s.fb := rfl
@[simp] theorem keyDown_mem (k : Key) : (keyDown k s).mem = s.mem := rfl
@[simp] theorem keyDown_paused (k : Key) : (keyDown k s).paused = s.paused := rfl
@[simp] theorem keyDown_fault (k : Key) : (keyDown k s).fault = s.fault := rfl
@[simp] theorem keyDown_faultInfo (k : Key) : (keyDown k s).faultInfo = s.faultInfo := rfl
@[simp] theorem keyDown_tickAcc (k : Key) : (keyDown k s).tickAcc = s.tickAcc := rfl
@[simp] theorem keyDown_cycleAcc (k : Key) : (keyDown k s).cycleAcc = s.cycleAcc := rfl
@[simp] theorem keyDown_draws (k : Key) : (keyDown k s).draws = s.draws := rfl
@[simp] theorem keyDown_schedule (k : Key) : (keyDown k s).schedule = s.schedule := rfl

/-! `keyUp` -/

@[simp] theorem keyUp_params (k : Key) : (keyUp k s).params = s.params := rfl
@[simp] theorem keyUp_regs (k : Key) : (keyUp k s).regs = s.regs := rfl
@[simp] theorem keyUp_index (k : Key) : (keyUp k s).index = s.index := rfl
@[simp] theorem keyUp_pc (k : Key) : (keyUp k s).pc = s.pc := rfl
@[simp] theorem keyUp_stack (k : Key) : (keyUp k s).stack = s.stack := rfl
@[simp] theorem keyUp_sp (k : Key) : (keyUp k s).sp = s.sp := rfl
@[simp] theorem keyUp_dt (k : Key) : (keyUp k s).dt = s.dt := rfl
@[simp] theorem keyUp_st (k : Key) : (keyUp k s).st = s.st := rfl
@[simp] theorem keyUp_keys (k : Key) : (keyUp k s).keys = s.keys.set k.val false k.isLt := rfl
@[simp] theorem keyUp_lastKey (k : Key) : (keyUp k s).lastKey = s.lastKey := rfl
@[simp] theorem keyUp_fb (k : Key) : (keyUp k s).fb = s.fb := rfl
@[simp] theorem keyUp_mem (k : Key) : (keyUp k s).mem = s.mem := rfl
@[simp] theorem keyUp_paused (k : Key) : (keyUp k s).paused = s.paused := rfl
@[simp] theorem keyUp_fault (k : Key) : (keyUp k s).fault = s.fault := rfl
@[simp] theorem keyUp_faultInfo (k : Key) : (keyUp k s).faultInfo = s.faultInfo := rfl
@[simp] theorem keyUp_tickAcc (k : Key) : (keyUp k s).tickAcc = s.tickAcc := rfl
@[simp] theorem keyUp_cycleAcc (k : Key) : (keyUp k s).cycleAcc = s.cycleAcc := rfl
@[simp] theorem keyUp_draws (k : Key) : (keyUp k s).draws = s.draws := rfl
@[simp] theorem keyUp_schedule (k : Key) : (keyUp k s).schedule = s.schedule := rfl

/-! `togglePause` -/

@[simp] theorem togglePause_params : (togglePause s).params = s.params := rfl
@[simp] theorem togglePause_regs : (togglePause s).regs = s.regs := rfl
@[simp] theorem togglePause_index : (togglePause s).index = s.index := rfl
@[simp] theorem togglePause_pc : (togglePause s).pc = s.pc := rfl
@[simp] theorem togglePause_stack : (togglePause s).stack = s.stack := rfl
@[simp] theorem togglePause_sp : (togglePause s).sp = s.sp := rfl
@[simp] theorem togglePause_dt : (togglePause s).dt = s.dt := rfl
@[simp] theorem togglePause_st : (togglePause s).st = s.st := rfl
@[simp] theorem togglePause_keys : (togglePause s).keys = s.keys := rfl
@[simp] theorem togglePause_lastKey : (togglePause s).lastKey = s.lastKey := rfl
@[simp] theorem togglePause_fb : (togglePause s).fb = s.fb := rfl
@[simp] theorem togglePause_mem : (togglePause s).mem = s.mem := rfl
@[simp] theorem togglePause_paused : (togglePause s).paused = !s.paused := rfl
@[simp] theorem togglePause_fault : (togglePause s).fault = s.fault := rfl
@[simp] theorem togglePause_faultInfo : (togglePause s).faultInfo = s.faultInfo := rfl
@[simp] theorem togglePause_tickAcc : (togglePause s).tickAcc = s.tickAcc := rfl
@[simp] theorem togglePause_cycleAcc : (togglePause s).cycleAcc = s.cycleAcc := rfl
@[simp] theorem togglePause_draws : (togglePause s).draws = s.draws := rfl
@[simp] theorem togglePause_schedule : (togglePause s).schedule = s.schedule := rfl

/-! `State.skipIf` -/

@[simp] theorem State.skipIf_params (c : Bool) : (s.skipIf c).params = s.params := by cases c <;> rfl
@[simp] theorem State.skipIf_regs (c : Bool) : (s.skipIf c).regs = s.regs := by cases c <;> rfl
@[simp] theorem State.skipIf_index (c : Bool) : (s.skipIf c).index = s.index := by cases c <;> rfl
theorem State.skipIf_pc (c : Bool) : (s.skipIf c).pc = if c then s.pc + 2 else s.pc := by
  cases c <;> rfl
@[simp] theorem State.skipIf_stack (c : Bool) : (s.skipIf c).stack = s.stack := by cases c <;> rfl
@[simp] theorem State.skipIf_sp (c : Bool) : (s.skipIf c).sp = s.sp := by cases c <;> rfl
@[simp] theorem State.skipIf_dt (c : Bool) : (s.skipIf c).dt = s.dt := by cases c <;> rfl
@[simp] theorem State.skipIf_st (c : Bool) : (s.skipIf c).st = s.st := by cases c <;> rfl
@[simp] theorem State.skipIf_keys (c : Bool) : (s.skipIf c).keys = s.keys := by cases c <;> rfl
@[simp] theorem State.skipIf_lastKey (c : Bool) : (s.skipIf c).lastKey = s.lastKey := by cases c <;> rfl
@[simp] theorem State.skipIf_fb (c : Bool) : (s.skipIf c).fb = s.fb := by cases c <;> rfl
@[simp] theorem State.skipIf_mem (c : Bool) : (s.skipIf c).mem = s.mem := by cases c <;> rfl
@[simp] theorem State.skipIf_paused (c : Bool) : (s.skipIf c).paused = s.paused := by cases c <;> rfl
@[simp] theorem State.skipIf_fault (c : Bool) : (s.skipIf c).fault = s.fault := by cases c <;> rfl
@[simp] theorem State.skipIf_faultInfo (c : Bool) : (s.skipIf c).faultInfo = s.faultInfo := by cases c <;> rfl
@[simp] theorem State.skipIf_tickAcc (c : Bool) : (s.skipIf c).tickAcc = s.tickAcc := by cases c <;> rfl
@[simp] theorem State.skipIf_cycleAcc (c : Bool) : (s.skipIf c).cycleAcc = s.cycleAcc := by cases c <;> rfl
@[simp] theorem State.skipIf_draws (c : Bool) : (s.skipIf c).draws = s.draws := by cases c <;> rfl
@[simp] theorem State.skipIf_schedule (c : Bool) : (s.skipIf c).schedule = s.schedule := by cases c <;> rfl

end Sys2Proof.Machine
end

