-- ==== Sys2Proof/Laws/Memory.lean ====
section
/-! SUPPORT. Reads after writes, and every memory operation keeps the canonical form. -/

namespace Sys2Proof.Machine

open Sys2Proof.Config

variable {p : Params} {m : Memory}

/-- An address below every listed one reads as unlisted. -/
theorem Memory.read_of_below {a : Nat} (h : ∀ c ∈ m, a < c.1) : Memory.read p m a = Memory.unlisted p a := by
  induction m with
  | nil => rfl
  | cons c rest ih =>
    obtain ⟨k, b⟩ := c
    have hk : a < k := h (k, b) (by simp)
    rw [Memory.read, if_neg (by omega)]
    exact ih fun c hc => h c (by simp [hc])

theorem Memory.wf_nil : Memory.wf p [] := ⟨List.Pairwise.nil, by simp⟩

theorem Memory.wf_tail {c : Host.Cell} (h : Memory.wf p (c :: m)) : Memory.wf p m :=
  ⟨(List.pairwise_cons.1 h.1).2, fun d hd => h.2 d (by simp [hd])⟩

/-- A write leaves every other address alone. -/
theorem Memory.read_write_other {a a' : Nat} (v : Byte) (h : a' ≠ a) :
    Memory.read p (Memory.write p m a v) a' = Memory.read p m a' := by
  induction m with
  | nil =>
    rw [Memory.write]
    split
    · rfl
    · simp [Memory.read, Ne.symm h]
  | cons c rest ih =>
    obtain ⟨k, b⟩ := c
    rw [Memory.write]
    split
    · split
      · rfl
      · simp [Memory.read, Ne.symm h]
    · split
      · subst a
        split
        · simp [Memory.read, Ne.symm h]
        · simp [Memory.read, Ne.symm h]
      · simp only [Memory.read, ih]

/-- A read after a write to the same address gives the value written. -/
theorem Memory.read_write_same (h : Memory.wf p m) (a : Nat) (v : Byte) :
    Memory.read p (Memory.write p m a v) a = v := by
  induction m with
  | nil =>
    rw [Memory.write]
    split
    · simp_all [Memory.read]
    · simp [Memory.read]
  | cons c rest ih =>
    obtain ⟨k, b⟩ := c
    have hbelow : ∀ d ∈ rest, k < d.1 := (List.pairwise_cons.1 h.1).1
    rw [Memory.write]
    split
    · rename_i hlt
      split
      · rename_i hv
        rw [hv]
        exact Memory.read_of_below fun d hd => by
          rcases List.mem_cons.1 hd with rfl | hd
          · exact hlt
          · exact Nat.lt_trans hlt (hbelow d hd)
      · simp [Memory.read]
    · split
      · subst a
        split
        · rename_i hv
          rw [hv]
          exact Memory.read_of_below hbelow
        · simp [Memory.read]
      · rw [Memory.read, if_neg (by omega)]
        exact ih (Memory.wf_tail h)

/-- What a written memory lists was listed before, or is the byte written. -/
theorem Memory.mem_write {a : Nat} {v : Byte} {c : Host.Cell} (h : c ∈ Memory.write p m a v) :
    c ∈ m ∨ (c = (a, v) ∧ v ≠ Memory.unlisted p a) := by
  induction m with
  | nil =>
    rw [Memory.write] at h
    split at h
    · simp at h
    · exact .inr ⟨by simpa using h, ‹_›⟩
  | cons d rest ih =>
    obtain ⟨k, b⟩ := d
    rw [Memory.write] at h
    split at h
    · split at h
      · exact .inl h
      · rcases List.mem_cons.1 h with rfl | h
        · exact .inr ⟨rfl, ‹_›⟩
        · exact .inl h
    · split at h
      · split at h
        · exact .inl (by simp [h])
        · rcases List.mem_cons.1 h with rfl | h
          · exact .inr ⟨rfl, ‹_›⟩
          · exact .inl (by simp [h])
      · rcases List.mem_cons.1 h with rfl | h
        · exact .inl (by simp)
        · rcases ih h with h | h
          · exact .inl (by simp [h])
          · exact .inr h

/-- A write inside the address space keeps the canonical form. -/
theorem Memory.write_wf (h : Memory.wf p m) {a : Nat} (ha : a < memSize) (v : Byte) :
    Memory.wf p (Memory.write p m a v) := by
  refine ⟨?_, fun c hc => ?_⟩
  · induction m with
    | nil =>
      rw [Memory.write]
      split <;> simp
    | cons c rest ih =>
      obtain ⟨k, b⟩ := c
      obtain ⟨hbelow, hrest⟩ := List.pairwise_cons.1 h.1
      rw [Memory.write]
      split
      · rename_i hlt
        split
        · exact h.1
        · refine List.pairwise_cons.2 ⟨fun d hd => ?_, h.1⟩
          rcases List.mem_cons.1 hd with rfl | hd
          · exact hlt
          · exact Nat.lt_trans hlt (hbelow d hd)
      · split
        · subst a
          split
          · exact hrest
          · exact List.pairwise_cons.2 ⟨hbelow, hrest⟩
        · refine List.pairwise_cons.2 ⟨fun d hd => ?_, ih (Memory.wf_tail h)⟩
          rcases Memory.mem_write hd with hd | ⟨rfl, -⟩
          · exact hbelow d hd
          · show k < a
            omega
  · rcases Memory.mem_write hc with hc | ⟨rfl, hv⟩
    · exact h.2 c hc
    · exact ⟨ha, hv⟩

/-- Stored bytes leave every address outside them alone. -/
theorem Memory.read_writeBytes_outside {a a' : Nat} (bs : List Byte) (h : a' < a ∨ a + bs.length ≤ a') :
    Memory.read p (Memory.writeBytes p m a bs) a' = Memory.read p m a' := by
  induction bs generalizing m a with
  | nil => rfl
  | cons b bs ih =>
    rw [List.length_cons] at h
    rw [Memory.writeBytes, ih (by omega), Memory.read_write_other b (by omega)]

/-- Stored bytes inside the address space keep the canonical form. -/
theorem Memory.writeBytes_wf (h : Memory.wf p m) (a : Nat) (bs : List Byte) (hin : a + bs.length ≤ memSize) :
    Memory.wf p (Memory.writeBytes p m a bs) := by
  induction bs generalizing m a with
  | nil => exact h
  | cons b bs ih =>
    rw [List.length_cons] at hin
    exact ih (Memory.write_wf h (by omega) b) (a + 1) (by omega)

/-- Byte `j` of the stored bytes reads back at its address. -/
theorem Memory.read_writeBytes_inside (h : Memory.wf p m) (a : Nat) (bs : List Byte)
    (hin : a + bs.length ≤ memSize) (j : Nat) (hj : j < bs.length) :
    Memory.read p (Memory.writeBytes p m a bs) (a + j) = bs[j] := by
  induction bs generalizing m a j with
  | nil => simp at hj
  | cons b bs ih =>
    rw [List.length_cons] at hin hj
    rw [Memory.writeBytes]
    cases j with
    | zero =>
      rw [Memory.read_writeBytes_outside bs (by omega), Nat.add_zero, Memory.read_write_same h]
      rfl
    | succ j =>
      have := ih (Memory.write_wf h (show a < memSize by omega) b) (a + 1) (by omega) j (by omega)
      rw [List.getElem_cons_succ, ← this]
      congr 1
      omega

theorem State.byteAt_storeBytes_outside (s : State) {a a' : Nat} (bs : List Byte) (h : a' < a ∨ a + bs.length ≤ a') :
    (s.storeBytes a bs).byteAt a' = s.byteAt a' :=
  Memory.read_writeBytes_outside bs h

theorem State.byteAt_storeBytes_inside (s : State) (h : Memory.wf s.params s.mem) (a : Nat) (bs : List Byte)
    (hin : a + bs.length ≤ memSize) (j : Nat) (hj : j < bs.length) :
    (s.storeBytes a bs).byteAt (a + j) = bs[j] :=
  Memory.read_writeBytes_inside h a bs hin j hj

@[simp] theorem State.length_bytesAt (s : State) (a k : Nat) : (s.bytesAt a k).length = k := by
  induction k generalizing a with
  | zero => rfl
  | succ k ih => simp [State.bytesAt, ih]

theorem State.getElem_bytesAt (s : State) (a k j : Nat) (h : j < (s.bytesAt a k).length) :
    (s.bytesAt a k)[j] = s.byteAt (a + j) := by
  induction k generalizing a j with
  | zero => simp [State.bytesAt] at h
  | succ k ih =>
    cases j with
    | zero => rfl
    | succ j =>
      simp only [State.bytesAt, List.getElem_cons_succ]
      rw [ih (a + 1) j]
      congr 1
      omega

/-- A read depends on the parameters and the memory alone. -/
theorem State.byteAt_congr {s t : State} (hp : t.params = s.params) (hm : t.mem = s.mem) (a : Nat) :
    t.byteAt a = s.byteAt a := by
  rw [State.byteAt, State.byteAt, hp, hm]

theorem State.bytesAt_congr {s t : State} (hp : t.params = s.params) (hm : t.mem = s.mem) (a k : Nat) :
    t.bytesAt a k = s.bytesAt a k := by
  induction k generalizing a with
  | zero => rfl
  | succ k ih => rw [State.bytesAt, State.bytesAt, ih, State.byteAt_congr hp hm]

end Sys2Proof.Machine
end

