-- ==== Sys2Proof/Laws/Registers.lean ====
section
/-! SUPPORT. Reading V registers after writing them, the stack, and the operand forms. -/

namespace Sys2Proof.Machine

variable (s : State)

theorem State.v_eq_getElem (x : Reg) : s.v x = s.regs[x.val] := rfl

theorem State.v_congr {s t : State} (h : t.regs = s.regs) (x : Reg) : t.v x = s.v x := by
  rw [State.v, State.v, h]

@[simp] theorem State.v_setV_same (x : Reg) (b : Byte) : (s.setV x b).v x = b := by
  simp [State.v_eq_getElem]

@[simp] theorem State.v_setV_other {x r : Reg} (b : Byte) (h : r ≠ x) : (s.setV x b).v r = s.v r := by
  simp [State.v_eq_getElem, Fin.val_ne_of_ne h.symm]

/-- The ordering law of R11: the flag wins. -/
@[simp] theorem State.v_setVThenFlag_vf (x : Reg) (r f : Byte) : (s.setVThenFlag x r f).v Reg.vf = f := by
  rw [State.setVThenFlag, State.v_setV_same]

theorem State.v_setVThenFlag_result {x : Reg} (r f : Byte) (h : x ≠ Reg.vf) : (s.setVThenFlag x r f).v x = r := by
  rw [State.setVThenFlag, State.v_setV_other _ f h, State.v_setV_same]

theorem State.v_setVThenFlag_other {x y : Reg} (r f : Byte) (hx : y ≠ x) (hf : y ≠ Reg.vf) :
    (s.setVThenFlag x r f).v y = s.v y := by
  rw [State.setVThenFlag, State.v_setV_other _ f hf, State.v_setV_other _ r hx]

theorem State.setVThenFlag_eq (x : Reg) (r f : Byte) :
    s.setVThenFlag x r f = { s with regs := (s.setVThenFlag x r f).regs } := rfl

/-- Loaded registers: from `k` on the bytes of the list, every other one as before (R125). -/
theorem getElem_loadRegsFrom (regs : Vector Byte 16) (k : Nat) (bs : List Byte) (j : Nat) (hj : j < 16) :
    (loadRegsFrom regs k bs)[j] = if h : k ≤ j ∧ j - k < bs.length then bs[j - k] else regs[j] := by
  induction bs generalizing regs k with
  | nil => simp [loadRegsFrom]
  | cons b bs ih =>
    rw [loadRegsFrom, ih]
    simp only [List.length_cons]
    by_cases hjk : j = k
    · subst j
      simp
    · by_cases hlt : k + 1 ≤ j
      · obtain ⟨d, rfl⟩ := Nat.exists_eq_add_of_le hlt
        have h1 : k + 1 + d - (k + 1) = d := by omega
        have h2 : k + 1 + d - k = d + 1 := by omega
        simp only [h1, h2, List.getElem_cons_succ, Vector.getElem_setIfInBounds]
        by_cases hd : d < bs.length
        · rw [dif_pos ⟨hlt, hd⟩, dif_pos ⟨by omega, by omega⟩]
        · rw [dif_neg (by omega), dif_neg (by omega), if_neg (by omega)]
      · rw [dif_neg (by omega), dif_neg (by omega), Vector.getElem_setIfInBounds, if_neg (by omega)]

@[simp] theorem State.length_vUpTo (x : Reg) : (s.vUpTo x).length = x.val + 1 := by
  simp [State.vUpTo]

theorem State.getElem_vUpTo (x : Reg) (j : Nat) (h : j < (s.vUpTo x).length) (hj : j < 16) :
    (s.vUpTo x)[j] = s.v ⟨j, hj⟩ := by
  simp [State.vUpTo, State.v_eq_getElem]

@[simp] theorem length_decimalDigits (v : Byte) : (decimalDigits v).length = 3 := rfl

/-- A pushed entry is the top of the stack (R14). -/
theorem State.stackAt_push_top (w : Word) (h : s.sp < s.stack.length) : (s.push w).stackAt s.sp = w := by
  simp [State.stackAt, h]

theorem State.stackAt_push_other (w : Word) {j : Nat} (h : j ≠ s.sp) : (s.push w).stackAt j = s.stackAt j := by
  simp [State.stackAt, Ne.symm h]

theorem State.stackAt_congr {s t : State} (h : t.stack = s.stack) (j : Nat) : t.stackAt j = s.stackAt j := by
  rw [State.stackAt, State.stackAt, h]

theorem State.keyIsDown_of_lt (k : Nat) (h : k < 16) : s.keyIsDown k = s.keys[k] := by
  simp [State.keyIsDown, h]

theorem State.keyIsDown_of_ge (k : Nat) (h : 16 ≤ k) : s.keyIsDown k = false := by
  simp [State.keyIsDown, h]

theorem State.anyKey_iff : s.anyKey = true ↔ ∃ k : Key, s.keys[k.val] = true := by
  simp only [State.anyKey, List.any_eq_true, id_eq, Vector.mem_toList_iff, exists_eq_right]
  rw [Vector.mem_iff_getElem]
  exact ⟨fun ⟨i, hi, h⟩ => ⟨⟨i, hi⟩, h⟩, fun ⟨k, h⟩ => ⟨k.val, k.isLt, h⟩⟩

/-! Flags and immediates as numbers. -/

@[simp] theorem toNat_address (nnn : BitVec 12) : (address nnn).toNat = nnn.toNat := by
  rw [address, BitVec.toNat_setWidth]
  exact Nat.mod_eq_of_lt (by omega)

@[simp] theorem State.toNat_vWord (x : Reg) : (s.vWord x).toNat = (s.v x).toNat := by
  rw [State.vWord, BitVec.toNat_setWidth]
  exact Nat.mod_eq_of_lt (by omega)

theorem toNat_flagByte (b : Bool) : (flagByte b).toNat = if b then 1 else 0 := by
  cases b <;> rfl

theorem toNat_lowBitFlag (b : Byte) : (lowBitFlag b).toNat = b.toNat % 2 := by
  simp [lowBitFlag, BitVec.toNat_and, Nat.and_one_is_mod]

end Sys2Proof.Machine
end

