-- ==== Sys2Proof/Laws/Cycle.lean ====
section
/-! SUPPORT. What the range check, fault entry, a cycle, a move and a step can do, each said once. -/

namespace Sys2Proof.Machine

open Sys2Proof.Config

variable {s t : State}

theorem outOfRange_iff {a k : Nat} : outOfRange a k ↔ 1 ≤ k ∧ 0x1000 < a + k := by
  unfold outOfRange
  omega

/-- A raise is a next state: the faulted one (R171). -/
theorem raise_eq (cause : FaultCause) (info : Word) (s : State) :
    raise cause info s = .next (s.faulted cause info) := rfl

/-- `faultInfo` of a range fault for an access that starts at a 16-bit register's value (R170). -/
theorem rangeInfo_toNat (w : Word) : rangeInfo w.toNat = (rangeFault w).2 := by
  unfold rangeInfo rangeFault
  by_cases h : w.toNat < 0x1000
  · rw [Nat.max_eq_right (by omega), if_pos h]
    rfl
  · rw [Nat.max_eq_left (by omega), if_neg h, BitVec.ofNat_toNat, BitVec.setWidth_eq]

/-- A checked access faults whole or goes on (R47). -/
theorem checked_cases {a k : Nat} {go : State} (h : checked a k s go = .next t) :
    (outOfRange a k ∧ t = s.faulted .memoryOutOfRange (rangeInfo a)) ∨ (¬ outOfRange a k ∧ t = go) := by
  unfold checked at h
  split at h
  · exact .inl ⟨‹_›, by simpa [raise_eq] using h.symm⟩
  · exact .inr ⟨‹_›, by simpa using h.symm⟩

theorem checked_of_inRange {a k : Nat} (go : State) (h : ¬ outOfRange a k) : checked a k s go = .next go := if_neg h

theorem checked_of_outOfRange {a k : Nat} (go : State) (h : outOfRange a k) :
    checked a k s go = .next (s.faulted .memoryOutOfRange (rangeInfo a)) := if_pos h

/-- A cycle faults at its fetch, or executes the fetched word on the state whose `pc` has advanced (R80). -/
theorem cycle_cases {o : Result} (h : cycle s = o) :
    (0xFFF ≤ s.pc.toNat ∧
      o = .next { s with fault := .memoryOutOfRange, faultInfo := rangeInfo s.pc.toNat }) ∨
    (s.pc.toNat ≤ 0xFFE ∧ o = exec (decodeWord (s.wordAt s.pc.toNat)) { s with pc := s.pc + 2 }) := by
  unfold cycle at h
  split at h
  · rename_i hr
    exact .inl ⟨by have := outOfRange_iff.1 hr; omega, h.symm⟩
  · rename_i hr
    exact .inr ⟨by rw [outOfRange_iff] at hr; omega, h.symm⟩

theorem cycle_of_le (h : s.pc.toNat ≤ 0xFFE) :
    cycle s = exec (decodeWord (s.wordAt s.pc.toNat)) { s with pc := s.pc + 2 } := by
  unfold cycle
  rw [if_neg (by rw [outOfRange_iff]; omega)]

theorem running_iff : s.running = true ↔ s.fault = .none ∧ s.paused = false := by
  simp [State.running]

/-- The step with a move scheduled is that move on the state without it (R181, log 2). -/
theorem step_scheduled {m : Move} {rest : List Move} (h : s.schedule = m :: rest) :
    step s = applyMove m { s with schedule := rest } := by
  unfold step nextMove
  rw [h]

/-- The step with nothing scheduled is the core's turn. -/
theorem step_unscheduled (h : s.schedule = []) : step s = coreTurn s := by
  unfold step nextMove
  rw [h]

/-- The core's turn: stopped when halted, waiting when paused, else one cycle. -/
theorem coreTurn_cases {o : Result} (h : coreTurn s = o) :
    (s.fault ≠ .none ∧ o = .fault (.halted s.fault s.faultInfo)) ∨
    (s.fault = .none ∧ s.paused = true ∧ o = .next s) ∨
    (s.fault = .none ∧ s.paused = false ∧ o = cycle s) := by
  unfold coreTurn at h
  split at h
  · split at h
    · exact .inr (.inl ⟨‹_›, ‹_›, h.symm⟩)
    · rename_i hf hp
      exact .inr (.inr ⟨hf, by simpa using hp, h.symm⟩)
  · exact .inl ⟨‹_›, h.symm⟩

/-- A load that succeeds and one that fails (R200, R201). -/
theorem load_of_le {program : List Byte} (h : program.length ≤ romMax) :
    load program s =
      { State.resetWith s.params with draws := s.draws, schedule := s.schedule }.storeBytes progBase program := by
  unfold load loadProgram
  rw [if_neg (by omega)]

theorem load_of_gt {program : List Byte} (h : romMax < program.length) : load program s = s := by
  unfold load loadProgram
  rw [if_pos h]

end Sys2Proof.Machine
end

