-- ==== Sys2Proof/Laws/Display.lean ====
section
/-! SUPPORT. What drawing a bit, a sprite row and a sprite does to each cell and to the collision flag. -/

namespace Sys2Proof.Machine

theorem Framebuffer.cell_of_lt (fb : Framebuffer) {y x : Nat} (hy : y < 32) (hx : x < 64) :
    fb.cell y x = fb[y][x] := dif_pos ⟨hy, hx⟩

theorem Framebuffer.cell_outside (fb : Framebuffer) {y x : Nat} (h : ¬ (y < 32 ∧ x < 64)) : fb.cell y x = false :=
  dif_neg h

/-- Two framebuffers with equal cells are equal. -/
theorem Framebuffer.eq_of_cell {fb fb' : Framebuffer} (h : ∀ y x, y < 32 → x < 64 → fb.cell y x = fb'.cell y x) :
    fb = fb' := by
  apply Vector.ext
  intro y hy
  apply Vector.ext
  intro x hx
  simpa [Framebuffer.cell_of_lt, hy, hx] using h y x hy hx

/-- Drawing a 1 bit toggles its cell, if the grid has it, and no other. -/
theorem cell_plot (y x : Nat) (fb : Framebuffer) (col : Bool) (y' x' : Nat) :
    Framebuffer.cell (plot y x fb col).1 y' x' =
      (fb.cell y' x' ^^ decide (y' = y ∧ x' = x ∧ y < 32 ∧ x < 64)) := by
  by_cases h : y < 32 ∧ x < 64
  · by_cases h' : y' < 32 ∧ x' < 64
    · rw [plot, dif_pos h, Framebuffer.cell_of_lt _ h'.1 h'.2, Framebuffer.cell_of_lt _ h'.1 h'.2]
      by_cases hy : y' = y
      · subst hy
        by_cases hx : x' = x
        · subst hx
          simp [h]
        · simp [hx, Ne.symm hx]
      · simp [hy, Ne.symm hy]
    · rw [Framebuffer.cell_outside _ h', Framebuffer.cell_outside _ h']
      have : ¬ (y' = y ∧ x' = x ∧ y < 32 ∧ x < 64) := by
        rintro ⟨rfl, rfl, h1, h2⟩
        exact h' ⟨h1, h2⟩
      simp [this]
  · rw [plot, dif_neg h]
    have : ¬ (y' = y ∧ x' = x ∧ y < 32 ∧ x < 64) := fun ⟨_, _, h1, h2⟩ => h ⟨h1, h2⟩
    simp [this]

/-- Drawing a 1 bit collides when its cell was on. -/
theorem collision_plot (y x : Nat) (fb : Framebuffer) (col : Bool) :
    (plot y x fb col).2 = (col || fb.cell y x) := by
  by_cases h : y < 32 ∧ x < 64
  · rw [plot, dif_pos h, Framebuffer.cell_of_lt _ h.1 h.2]
  · rw [plot, dif_neg h, Framebuffer.cell_outside _ h, Bool.or_false]

/-- Does column `c` of byte `b`, drawn from column `x0`, with the last `left` columns to draw, hit column `x`? -/
abbrev rowBit (x0 : Nat) (b : Byte) (left x : Nat) : Prop :=
  ∃ j < left, x = x0 + (7 - j) ∧ b.getLsbD j = true

/-- A sprite row toggles the cells its 1 bits hit and no other, and collides when one of them was on. -/
theorem drawRow_spec (y x0 : Nat) (b : Byte) (left : Nat) (hl : left ≤ 8) (fb : Framebuffer) (col : Bool) :
    (∀ y' x', Framebuffer.cell (drawRow y x0 b left fb col).1 y' x' =
      (fb.cell y' x' ^^ decide (y' = y ∧ rowBit x0 b left x' ∧ y' < 32 ∧ x' < 64))) ∧
    ((drawRow y x0 b left fb col).2 = true ↔ col = true ∨ ∃ x', rowBit x0 b left x' ∧ fb.cell y x' = true) := by
  induction left generalizing fb col with
  | zero =>
    have hno : ∀ x', ¬ rowBit x0 b 0 x' := fun x' ⟨j, hj, _⟩ => by omega
    exact ⟨fun y' x' => by simp only [drawRow, hno]; simp, by simp only [drawRow, hno]; simp⟩
  | succ left ih =>
    rw [drawRow]
    by_cases hb : b.getLsbD left = true
    · rw [if_pos hb]
      obtain ⟨hcell, hcol⟩ := ih (by omega) (plot y (x0 + (7 - left)) fb col).1 (plot y (x0 + (7 - left)) fb col).2
      refine ⟨fun y' x' => ?_, ?_⟩
      · rw [hcell, cell_plot]
        have hsplit : rowBit x0 b (left + 1) x' ↔ rowBit x0 b left x' ∨ x' = x0 + (7 - left) := by
          constructor
          · rintro ⟨j, hj, hx, hbit⟩
            by_cases hjl : j = left
            · subst hjl
              exact .inr hx
            · exact .inl ⟨j, by omega, hx, hbit⟩
          · rintro (⟨j, hj, hx, hbit⟩ | hx)
            · exact ⟨j, by omega, hx, hbit⟩
            · exact ⟨left, by omega, hx, hb⟩
        have hexcl : rowBit x0 b left x' → x' ≠ x0 + (7 - left) := by
          rintro ⟨j, hj, rfl, -⟩
          omega
        by_cases hx : x' = x0 + (7 - left)
        · have hno : ¬ rowBit x0 b left x' := fun h => hexcl h hx
          have hall : rowBit x0 b (left + 1) x' := hsplit.2 (.inr hx)
          simp only [hno, hall]
          subst hx
          by_cases hy : y' = y
          · subst hy
            simp
          · simp [hy]
        · have hiff : rowBit x0 b (left + 1) x' ↔ rowBit x0 b left x' := by
            rw [hsplit]
            simp [hx]
          have hoff : decide (y' = y ∧ x' = x0 + (7 - left) ∧ y < 32 ∧ x0 + (7 - left) < 64) = false := by simp [hx]
          simp only [hiff, hoff, Bool.xor_false]
      · rw [hcol, collision_plot, Bool.or_eq_true]
        constructor
        · rintro ((h | h) | ⟨x', ⟨j, hj, hx, hbit⟩, hcell'⟩)
          · exact .inl h
          · exact .inr ⟨_, ⟨left, by omega, rfl, hb⟩, h⟩
          · refine .inr ⟨x', ⟨j, by omega, hx, hbit⟩, ?_⟩
            have hne : x' ≠ x0 + (7 - left) := by omega
            rw [cell_plot] at hcell'
            simpa [hne] using hcell'
        · rintro (h | ⟨x', ⟨j, hj, hx, hbit⟩, hcell'⟩)
          · exact .inl (.inl h)
          · by_cases hjl : j = left
            · subst hjl
              subst hx
              exact .inl (.inr hcell')
            · refine .inr ⟨x', ⟨j, by omega, hx, hbit⟩, ?_⟩
              have hne : x' ≠ x0 + (7 - left) := by omega
              rw [cell_plot, hcell']
              simp [hne]
    · rw [if_neg hb]
      obtain ⟨hcell, hcol⟩ := ih (by omega) fb col
      have hiff : ∀ x', rowBit x0 b (left + 1) x' ↔ rowBit x0 b left x' := by
        intro x'
        constructor
        · rintro ⟨j, hj, hx, hbit⟩
          have : j ≠ left := by
            rintro rfl
            exact hb hbit
          exact ⟨j, by omega, hx, hbit⟩
        · rintro ⟨j, hj, hx, hbit⟩
          exact ⟨j, by omega, hx, hbit⟩
      exact ⟨fun y' x' => by rw [hcell]; simp only [hiff], by rw [hcol]; simp only [hiff]⟩

/-- Does a 1 bit of the sprite of these bytes, drawn from row `y0` and column `x0`, fall on (row, column)? -/
abbrev spriteHits (x0 y0 : Nat) (bs : List Byte) (row column : Nat) : Prop :=
  ∃ r, ∃ h : r < bs.length, row = y0 + r ∧ rowBit x0 bs[r] 8 column

/-- A sprite toggles the cells its 1 bits fall on and no other, and collides when one of them was on. -/
theorem drawRows_spec (x0 y0 : Nat) (bs : List Byte) (fb : Framebuffer) (col : Bool) :
    (∀ y x, y < 32 → x < 64 → (Framebuffer.cell (drawRows x0 y0 bs fb col).1 y x = true ↔
      ¬ (fb.cell y x = true ↔ spriteHits x0 y0 bs y x))) ∧
    ((drawRows x0 y0 bs fb col).2 = true ↔
      col = true ∨ ∃ y x, spriteHits x0 y0 bs y x ∧ fb.cell y x = true) := by
  induction bs generalizing y0 fb col with
  | nil => simp [drawRows, spriteHits]
  | cons b bs ih =>
    rw [drawRows]
    obtain ⟨hrow, hrowcol⟩ := drawRow_spec y0 x0 b 8 (Nat.le_refl 8) fb col
    obtain ⟨hcell, hcol⟩ := ih (y0 + 1) (drawRow y0 x0 b 8 fb col).1 (drawRow y0 x0 b 8 fb col).2
    have hsplit : ∀ y x, spriteHits x0 y0 (b :: bs) y x ↔
        (y = y0 ∧ rowBit x0 b 8 x) ∨ spriteHits x0 (y0 + 1) bs y x := by
      intro y x
      constructor
      · rintro ⟨r, hr, hy, hbit⟩
        cases r with
        | zero => exact .inl ⟨hy, hbit⟩
        | succ r => exact .inr ⟨r, by simpa using hr, by omega, hbit⟩
      · rintro (⟨hy, hbit⟩ | ⟨r, hr, hy, hbit⟩)
        · exact ⟨0, by simp, hy, hbit⟩
        · exact ⟨r + 1, by simpa using hr, by omega, hbit⟩
    have hbelow : ∀ y x, spriteHits x0 (y0 + 1) bs y x → y ≠ y0 := by
      rintro y x ⟨r, -, hy, -⟩
      omega
    refine ⟨fun y x hy hx => ?_, ?_⟩
    · rw [hcell y x hy hx, hrow, hsplit]
      by_cases hyy : y = y0
      · have hno : ¬ spriteHits x0 (y0 + 1) bs y x := fun h => hbelow y x h hyy
        subst hyy
        generalize spriteHits x0 (y + 1) bs y x = P at hno ⊢
        by_cases hbit : rowBit x0 b 8 x <;> cases fb.cell y x <;> simp [hbit, hy, hx, hno]
      · generalize spriteHits x0 (y0 + 1) bs y x = P
        simp [hyy]
    · rw [hcol, hrowcol]
      constructor
      · rintro ((h | ⟨x, hbit, h⟩) | ⟨y, x, hhit, h⟩)
        · exact .inl h
        · exact .inr ⟨y0, x, (hsplit y0 x).2 (.inl ⟨rfl, hbit⟩), h⟩
        · refine .inr ⟨y, x, (hsplit y x).2 (.inr hhit), ?_⟩
          rw [hrow] at h
          simpa [hbelow y x hhit] using h
      · rintro (h | ⟨y, x, hhit, h⟩)
        · exact .inl (.inl h)
        · rcases (hsplit y x).1 hhit with ⟨rfl, hbit⟩ | hhit
          · exact .inl (.inr ⟨x, hbit, h⟩)
          · refine .inr ⟨y, x, hhit, ?_⟩
            rw [hrow, h]
            simp [hbelow y x hhit]

end Sys2Proof.Machine
end

