-- ==== Sys2Proof/Laws/Encoding.lean ====
section
/-! SUPPORT. The fields of an encoded word, and what a mask keeps of one. -/

namespace Sys2Proof

variable (op n : BitVec 4) (x y : Reg) (nn : Byte) (nnn : BitVec 12)

/-! Fields of a word as numbers (R61). -/

theorem toNat_fieldOp (w : Word) : (fieldOp w).toNat = w.toNat / 0x1000 := by
  simp [fieldOp, Nat.shiftRight_eq_div_pow]
  omega

theorem val_fieldX (w : Word) : (fieldX w).val = w.toNat / 0x100 % 16 := by
  simp [fieldX, Nat.shiftRight_eq_div_pow]

theorem val_fieldY (w : Word) : (fieldY w).val = w.toNat / 0x10 % 16 := by
  simp [fieldY, Nat.shiftRight_eq_div_pow]

theorem toNat_fieldN (w : Word) : (fieldN w).toNat = w.toNat % 0x10 := by
  simp [fieldN]

theorem toNat_fieldNN (w : Word) : (fieldNN w).toNat = w.toNat % 0x100 := by
  simp [fieldNN]

theorem toNat_fieldNNN (w : Word) : (fieldNNN w).toNat = w.toNat % 0x1000 := by
  simp [fieldNNN]

/-! Words of the four formats as numbers (R62). -/

theorem toNat_encodeNNN : (encodeNNN op nnn).toNat = op.toNat * 0x1000 + nnn.toNat := by
  rw [encodeNNN, BitVec.toNat_ofNat]
  omega

theorem toNat_encodeXNN : (encodeXNN op x nn).toNat = op.toNat * 0x1000 + x.val * 0x100 + nn.toNat := by
  rw [encodeXNN, BitVec.toNat_ofNat]
  omega

theorem toNat_encodeX : (encodeX op x nn).toNat = op.toNat * 0x1000 + x.val * 0x100 + nn.toNat :=
  toNat_encodeXNN op x nn

theorem toNat_encodeXYN :
    (encodeXYN op x y n).toNat = op.toNat * 0x1000 + x.val * 0x100 + y.val * 0x10 + n.toNat := by
  rw [encodeXYN, BitVec.toNat_ofNat]
  omega

theorem toNat_wordOfBytes (hi lo : Byte) : (wordOfBytes hi lo).toNat = hi.toNat * 0x100 + lo.toNat := by
  rw [wordOfBytes, BitVec.toNat_ofNat]
  omega

/-! Fields of an encoded word. -/

@[simp] theorem fieldOp_encodeNNN : fieldOp (encodeNNN op nnn) = op := by
  apply BitVec.eq_of_toNat_eq
  rw [toNat_fieldOp, toNat_encodeNNN]
  omega

@[simp] theorem fieldNNN_encodeNNN : fieldNNN (encodeNNN op nnn) = nnn := by
  apply BitVec.eq_of_toNat_eq
  rw [toNat_fieldNNN, toNat_encodeNNN]
  omega

@[simp] theorem fieldOp_encodeXNN : fieldOp (encodeXNN op x nn) = op := by
  apply BitVec.eq_of_toNat_eq
  rw [toNat_fieldOp, toNat_encodeXNN]
  omega

@[simp] theorem fieldX_encodeXNN : fieldX (encodeXNN op x nn) = x := by
  apply Fin.ext
  rw [val_fieldX, toNat_encodeXNN]
  omega

@[simp] theorem fieldNN_encodeXNN : fieldNN (encodeXNN op x nn) = nn := by
  apply BitVec.eq_of_toNat_eq
  rw [toNat_fieldNN, toNat_encodeXNN]
  omega

@[simp] theorem fieldOp_encodeX : fieldOp (encodeX op x nn) = op := fieldOp_encodeXNN op x nn

@[simp] theorem fieldX_encodeX : fieldX (encodeX op x nn) = x := fieldX_encodeXNN op x nn

@[simp] theorem fieldNN_encodeX : fieldNN (encodeX op x nn) = nn := fieldNN_encodeXNN op x nn

@[simp] theorem fieldOp_encodeXYN : fieldOp (encodeXYN op x y n) = op := by
  apply BitVec.eq_of_toNat_eq
  rw [toNat_fieldOp, toNat_encodeXYN]
  omega

@[simp] theorem fieldX_encodeXYN : fieldX (encodeXYN op x y n) = x := by
  apply Fin.ext
  rw [val_fieldX, toNat_encodeXYN]
  omega

@[simp] theorem fieldY_encodeXYN : fieldY (encodeXYN op x y n) = y := by
  apply Fin.ext
  rw [val_fieldY, toNat_encodeXYN]
  omega

@[simp] theorem fieldN_encodeXYN : fieldN (encodeXYN op x y n) = n := by
  apply BitVec.eq_of_toNat_eq
  rw [toNat_fieldN, toNat_encodeXYN]
  omega

/-! Masks. -/

/-- The masks of the opcode map as numbers. -/
theorem toNat_and_F000 (w : Word) : (w &&& 0xF000#16).toNat = w.toNat / 0x1000 * 0x1000 := by
  have h : w &&& 0xF000#16 = w >>> 12 <<< 12 := by
    apply BitVec.eq_of_getLsbD_eq
    intro i hi
    interval_cases i <;> simp
  rw [h, BitVec.toNat_shiftLeft, BitVec.toNat_ushiftRight, Nat.shiftRight_eq_div_pow, Nat.shiftLeft_eq]
  omega

theorem toNat_and_000F (w : Word) : (w &&& 0x000F#16).toNat = w.toNat % 0x10 := by
  rw [BitVec.toNat_and]
  exact Nat.and_two_pow_sub_one_eq_mod w.toNat 4

theorem and_F00F (w : Word) : w &&& 0xF00F#16 = (w &&& 0xF000#16) ||| (w &&& 0x000F#16) := by
  rw [← BitVec.and_or_distrib_left]
  rfl

theorem and_F0FF (w : Word) : w &&& 0xF0FF#16 = (w &&& 0xF000#16) ||| (w &&& 0x00FF#16) := by
  rw [← BitVec.and_or_distrib_left]
  rfl

theorem toNat_and_00FF (w : Word) : (w &&& 0x00FF#16).toNat = w.toNat % 0x100 := by
  rw [BitVec.toNat_and]
  exact Nat.and_two_pow_sub_one_eq_mod w.toNat 8

/-- A word a row accepts agrees with the row's pattern under every part of its mask. -/
theorem OpcodeRow.and_of_accepts {r : OpcodeRow} {w : Word} (h : r.accepts w) (k : Word) (hk : r.mask &&& k = k) :
    w &&& k = r.pattern &&& k := by
  rw [← h, BitVec.and_assoc, hk]

/-- An unrecognised word is accepted by no row of the opcode map (R68). -/
theorem not_accepts_of_unrecognised {w : Word} (hw : Word.unrecognised w) : ∀ r ∈ opcodeMap, ¬ r.accepts w := by
  intro r hr ha
  have hF := OpcodeRow.and_of_accepts ha 0xF000
  have hB := OpcodeRow.and_of_accepts ha 0x00FF
  have hN := OpcodeRow.and_of_accepts ha 0x000F
  have hall := OpcodeRow.and_of_accepts ha 0xFFFF
  unfold Word.unrecognised at hw
  revert hw hF hB hN hall
  generalize w &&& 0xF000 = f
  generalize w &&& 0x00FF = b
  generalize w &&& 0x000F = n
  rw [show w &&& 0xFFFF = w from BitVec.and_allOnes]
  intro hw hF hB hN hall
  clear ha
  simp only [opcodeMap, List.mem_append, List.mem_cons, List.not_mem_nil, or_false] at hr
  rcases hr with ((hr | hr) | hr) | hr <;> (repeat' (rcases hr with rfl | hr)) <;>
    simp at hF hB hN hall <;> simp_all

end Sys2Proof
end

