-- ==== Sys2Proof/Laws/Exec.lean ====
section
/-! SUPPORT. What an execution can do at all: it answers a next state, keeps the host's and the timing's state, and a fault is its only other effect. -/

namespace Sys2Proof.Machine

open Sys2Proof.Config

variable {s t : State}

/-- A skip changes `pc` alone (R84 to R87, R150, R151). -/
theorem State.skipIf_eq (s : State) (b : Bool) : s.skipIf b = { s with pc := if b then s.pc + 2 else s.pc } := by
  cases b <;> rfl

/-- A checked access answers a next state. -/
theorem checked_next (a k : Nat) (s go : State) : ∃ t, checked a k s go = .next t := by
  unfold checked
  split <;> exact ⟨_, rfl⟩

/-- Every execution answers a next state: no instruction stops the machine. -/
theorem exec_next (i : Instr) (s : State) : ∃ t, exec i s = .next t := by
  cases i
  case drw | ldB | stRegs | ldRegs => exact checked_next _ _ _ _
  case ret => simp only [exec, execRet]; split <;> exact ⟨_, rfl⟩
  case call => simp only [exec, execCall]; split <;> exact ⟨_, rfl⟩
  case ldVxK => simp only [exec, execLdVxK]; split <;> exact ⟨_, rfl⟩
  all_goals exact ⟨_, rfl⟩

/-- No execution writes the keys, `lastKey`, the pause, the accumulators, the parameters or the schedule (R23). -/
theorem exec_keeps {i : Instr} (h : exec i s = .next t) :
    t = { t with keys := s.keys, lastKey := s.lastKey, paused := s.paused, tickAcc := s.tickAcc,
                 cycleAcc := s.cycleAcc, params := s.params, schedule := s.schedule } := by
  cases i
  case drw | ldB | stRegs | ldRegs => rcases checked_cases h with ⟨-, rfl⟩ | ⟨-, rfl⟩ <;> rfl
  case ret => simp only [exec, execRet] at h; split at h <;> cases h <;> rfl
  case call => simp only [exec, execCall] at h; split at h <;> cases h <;> rfl
  case ldVxK => simp only [exec, execLdVxK] at h; split at h <;> cases h <;> rfl
  case seImm | sneImm | seReg | sneReg | skp | sknp =>
    simp only [exec, execSeImm, execSneImm, execSeReg, execSneReg, execSkp, execSknp, State.skipIf_eq] at h
    cases h
    rfl
  all_goals cases h; rfl

/-- An execution leaves the fault latches alone, or is a raise and changes nothing else (R171). -/
theorem exec_raises_or_keeps_latches {i : Instr} (h : exec i s = .next t) :
    (t.fault = s.fault ∧ t.faultInfo = s.faultInfo) ∨ ∃ cause info, cause ≠ .none ∧ t = s.faulted cause info := by
  cases i
  case drw | ldB | stRegs | ldRegs =>
    rcases checked_cases h with ⟨-, rfl⟩ | ⟨-, rfl⟩
    · exact .inr ⟨_, _, by decide, rfl⟩
    · exact .inl ⟨rfl, rfl⟩
  case ret =>
    simp only [exec, execRet] at h
    split at h <;> cases h
    · exact .inr ⟨_, _, by decide, rfl⟩
    · exact .inl ⟨rfl, rfl⟩
  case call =>
    simp only [exec, execCall] at h
    split at h <;> cases h
    · exact .inr ⟨_, _, by decide, rfl⟩
    · exact .inl ⟨rfl, rfl⟩
  case ldVxK => simp only [exec, execLdVxK] at h; split at h <;> cases h <;> exact .inl ⟨rfl, rfl⟩
  case seImm | sneImm | seReg | sneReg | skp | sknp =>
    simp only [exec, execSeImm, execSneImm, execSeReg, execSneReg, execSkp, execSknp, State.skipIf_eq] at h
    cases h
    exact .inl ⟨rfl, rfl⟩
  all_goals cases h; exact .inl ⟨rfl, rfl⟩

/-- Every cycle answers a next state. -/
theorem cycle_next (s : State) : ∃ t, cycle s = .next t := by
  rcases cycle_cases (rfl : cycle s = cycle s) with ⟨-, h⟩ | ⟨-, h⟩
  · exact ⟨_, h⟩
  · rw [h]
    exact exec_next _ _

/-- No cycle writes the keys, `lastKey`, the pause, the accumulators, the parameters or the schedule. -/
theorem cycle_keeps (h : cycle s = .next t) :
    t = { t with keys := s.keys, lastKey := s.lastKey, paused := s.paused, tickAcc := s.tickAcc,
                 cycleAcc := s.cycleAcc, params := s.params, schedule := s.schedule } := by
  rcases cycle_cases h with ⟨-, h⟩ | ⟨-, h⟩
  · cases h
    rfl
  · exact exec_keeps (s := { s with pc := s.pc + 2 }) h.symm

end Sys2Proof.Machine
end

