-- ==== Sys2Proof/Laws/Pacing.lean ====
section
/-! SUPPORT. What several cycles and ticks keep, and the arithmetic of whole periods (R179, R180). -/

namespace Sys2Proof.Machine

variable {s t : State}

/-- Several cycles answer a next state. -/
theorem cycles_next (m : Nat) (s : State) : ∃ t, cycles m s = .next t := by
  induction m generalizing s with
  | zero => exact ⟨s, rfl⟩
  | succ m ih =>
    unfold cycles
    split
    · obtain ⟨t, h⟩ := cycle_next s
      rw [h]
      exact ih t
    · exact ⟨s, rfl⟩

/-- One cycle and then the others, or nothing when the latch is set. -/
theorem cycles_succ_cases {m : Nat} (h : cycles (m + 1) s = .next t) :
    (s.fault = .none ∧ ∃ u, cycle s = .next u ∧ cycles m u = .next t) ∨ (s.fault ≠ .none ∧ t = s) := by
  unfold cycles at h
  split at h
  · obtain ⟨u, hu⟩ := cycle_next s
    rw [hu] at h
    exact .inl ⟨‹_›, u, hu, h⟩
  · cases h
    exact .inr ⟨‹_›, rfl⟩

/-- After `k` cycles, `j` more. -/
theorem cycles_split {k : Nat} (j : Nat) (h : cycles k s = .next t) : cycles (k + j) s = cycles j t := by
  induction k generalizing s with
  | zero =>
    cases h
    rw [Nat.zero_add]
  | succ k ih =>
    rw [Nat.add_right_comm]
    rcases cycles_succ_cases h with ⟨hf, u, hu, h⟩ | ⟨hf, rfl⟩
    · rw [cycles, if_pos hf, hu]
      exact ih h
    · rw [cycles, if_neg hf]
      cases j with
      | zero => rfl
      | succ j => rw [cycles, if_neg hf]

/-- A machine that several cycles leave with the latch set came to it in one of them (R171). -/
theorem cycles_fault_cases {m : Nat} (hs : s.fault = .none) (h : cycles m s = .next t) (ht : t.fault ≠ .none) :
    ∃ k < m, ∃ u, cycles k s = .next u ∧ u.fault = .none ∧ cycle u = .next t := by
  induction m generalizing s with
  | zero =>
    cases h
    exact absurd hs ht
  | succ m ih =>
    rcases cycles_succ_cases h with ⟨-, u, hu, h⟩ | ⟨hf, -⟩
    · by_cases huf : u.fault = .none
      · obtain ⟨k, hk, w, hw, hwf, hwc⟩ := ih huf h
        refine ⟨k + 1, by omega, w, ?_, hwf, hwc⟩
        rw [cycles, if_pos hs, hu]
        exact hw
      · have hut : t = u := by
          cases m with
          | zero => cases h; rfl
          | succ m =>
            rcases cycles_succ_cases h with ⟨hf, -⟩ | ⟨-, e⟩
            · exact absurd hf huf
            · exact e
        exact ⟨0, by omega, s, rfl, hs, hut ▸ hu⟩
    · exact absurd hs hf

/-- Several cycles write neither the keys, `lastKey`, the pause, the accumulators, the parameters nor the schedule. -/
theorem cycles_keeps {m : Nat} (h : cycles m s = .next t) :
    t = { t with keys := s.keys, lastKey := s.lastKey, paused := s.paused, tickAcc := s.tickAcc,
                 cycleAcc := s.cycleAcc, params := s.params, schedule := s.schedule } := by
  induction m generalizing s with
  | zero => cases h; rfl
  | succ m ih =>
    rcases cycles_succ_cases h with ⟨-, u, hu, h⟩ | ⟨-, rfl⟩
    · rw [ih h, cycle_keeps hu]
    · rfl

/-- Ticks write the two timers alone. -/
theorem ticks_keeps (n : Nat) (s : State) : ticks n s = { s with dt := (ticks n s).dt, st := (ticks n s).st } := by
  induction n generalizing s with
  | zero => rfl
  | succ n ih => rw [ticks, ih]; rfl

/-- A number between `n` and `n + 1` holds `n` whole periods. -/
theorem wholePeriods_eq {acc b : ℚ} {n : Nat} (h : acc = n + b) (h0 : 0 ≤ b) (h1 : b < 1) : wholePeriods acc = n := by
  unfold wholePeriods
  rw [Nat.floor_eq_iff (by rw [h]; positivity)]
  constructor <;> linarith

/-- The residual of the whole periods is in [0, 1) (R22). -/
theorem wholePeriods_residual {acc : ℚ} (h : 0 ≤ acc) : 0 ≤ acc - wholePeriods acc ∧ acc - wholePeriods acc < 1 := by
  have h1 := Nat.floor_le h
  have h2 := Nat.lt_floor_add_one acc
  unfold wholePeriods
  constructor <;> linarith

/-- Counting in two parts, the residual carried over, counts every period once. -/
theorem wholePeriods_add {a b : ℚ} (ha : 0 ≤ a) (hb : 0 ≤ b) :
    wholePeriods a + wholePeriods (a - wholePeriods a + b) = wholePeriods (a + b) := by
  have hr := (wholePeriods_residual ha).1
  have hsplit : a + b = (a - wholePeriods a + b) + (wholePeriods a : ℕ) := by ring
  rw [hsplit]
  unfold wholePeriods at *
  rw [Nat.floor_add_natCast (by linarith)]
  omega

end Sys2Proof.Machine
end

