-- ==== Sys2Proof/Laws/PerInstr.lean ====
section
/-! SUPPORT. Per-instruction family `RowMatch`: a well-formed instruction's word is accepted by its row of the opcode map, and by no row when it has none (30_encoding.md R67, R68). -/

namespace Sys2Proof

/-- A word with a given top nibble is what the mask 0xF000 keeps. -/
theorem and_F000_of_op {w : Word} {op : BitVec 4} (h : w.toNat / 0x1000 = op.toNat) (pattern : Word)
    (hp : pattern.toNat = op.toNat * 0x1000) : w &&& 0xF000#16 = pattern := by
  apply BitVec.eq_of_toNat_eq
  rw [toNat_and_F000, h, hp]

/-- A word with a given top nibble and low nibble, under the mask of family 8. -/
theorem and_F00F_of_fields {w high low : Word} (hh : w &&& 0xF000#16 = high) (hl : w.toNat % 0x10 = low.toNat) :
    w &&& 0xF00F#16 = high ||| low := by
  have h : w &&& 0x000F#16 = low := by
    apply BitVec.eq_of_toNat_eq
    rw [toNat_and_000F, hl]
  rw [and_F00F, hh, h]

/-- A word with a given top nibble and low byte, under the mask of families E and F. -/
theorem and_F0FF_of_fields {w high low : Word} (hh : w &&& 0xF000#16 = high) (hl : w.toNat % 0x100 = low.toNat) :
    w &&& 0xF0FF#16 = high ||| low := by
  have h : w &&& 0x00FF#16 = low := by
    apply BitVec.eq_of_toNat_eq
    rw [toNat_and_00FF, hl]
  rw [and_F0FF, hh, h]

namespace Laws.RowMatch

/-- The word of a well-formed instruction is accepted by the instruction's row, and by no row if it has none. -/
def Statement (i : Instr) : Prop :=
  i.wellFormed = true →
    match rowOf i with
    | some r => r ∈ opcodeMap ∧ r.accepts (encode i)
    | none => ∀ r ∈ opcodeMap, ¬ r.accepts (encode i)

theorem ofNNN (op : BitVec 4) (nnn : BitVec 12) (p : Word) (hp : p.toNat = op.toNat * 0x1000) :
    encodeNNN op nnn &&& 0xF000#16 = p :=
  and_F000_of_op (by rw [toNat_encodeNNN]; omega) p hp

theorem ofXNN (op : BitVec 4) (x : Reg) (nn : Byte) (p : Word) (hp : p.toNat = op.toNat * 0x1000) :
    encodeXNN op x nn &&& 0xF000#16 = p :=
  and_F000_of_op (by rw [toNat_encodeXNN]; omega) p hp

theorem ofXYN (op : BitVec 4) (x y : Reg) (n : BitVec 4) (p : Word) (hp : p.toNat = op.toNat * 0x1000) :
    encodeXYN op x y n &&& 0xF000#16 = p :=
  and_F000_of_op (by rw [toNat_encodeXYN]; omega) p hp

theorem ofXY (x y : Reg) (n : BitVec 4) (low : Word) (hl : low.toNat = n.toNat) :
    encodeXYN 0x8 x y n &&& 0xF00F#16 = 0x8000 ||| low :=
  and_F00F_of_fields (ofXYN 0x8 x y n 0x8000 rfl) (by rw [toNat_encodeXYN, hl]; omega)

theorem ofX (op : BitVec 4) (x : Reg) (sub : Byte) (high low : Word) (hh : high.toNat = op.toNat * 0x1000)
    (hl : low.toNat = sub.toNat) : encodeX op x sub &&& 0xF0FF#16 = high ||| low :=
  and_F0FF_of_fields (ofXNN op x sub high hh) (by rw [toNat_encodeX, hl]; omega)

theorem cls : Statement .cls := fun _ => ⟨by decide, by decide⟩
theorem ret : Statement .ret := fun _ => ⟨by decide, by decide⟩
theorem jp (nnn : BitVec 12) : Statement (.jp nnn) := fun _ => ⟨by decide, ofNNN 0x1 nnn _ rfl⟩
theorem call (nnn : BitVec 12) : Statement (.call nnn) := fun _ => ⟨by decide, ofNNN 0x2 nnn _ rfl⟩
theorem seImm (x : Reg) (nn : Byte) : Statement (.seImm x nn) := fun _ => ⟨by decide, ofXNN 0x3 x nn _ rfl⟩
theorem sneImm (x : Reg) (nn : Byte) : Statement (.sneImm x nn) := fun _ => ⟨by decide, ofXNN 0x4 x nn _ rfl⟩
theorem seReg (x y : Reg) (n : BitVec 4) : Statement (.seReg x y n) := fun _ => ⟨by decide, ofXYN 0x5 x y n _ rfl⟩
theorem ldImm (x : Reg) (nn : Byte) : Statement (.ldImm x nn) := fun _ => ⟨by decide, ofXNN 0x6 x nn _ rfl⟩
theorem addImm (x : Reg) (nn : Byte) : Statement (.addImm x nn) := fun _ => ⟨by decide, ofXNN 0x7 x nn _ rfl⟩
theorem ldReg (x y : Reg) : Statement (.ldReg x y) := fun _ => ⟨by decide, ofXY x y 0x0 0x0 rfl⟩
theorem orReg (x y : Reg) : Statement (.orReg x y) := fun _ => ⟨by decide, ofXY x y 0x1 0x1 rfl⟩
theorem andReg (x y : Reg) : Statement (.andReg x y) := fun _ => ⟨by decide, ofXY x y 0x2 0x2 rfl⟩
theorem xorReg (x y : Reg) : Statement (.xorReg x y) := fun _ => ⟨by decide, ofXY x y 0x3 0x3 rfl⟩
theorem addReg (x y : Reg) : Statement (.addReg x y) := fun _ => ⟨by decide, ofXY x y 0x4 0x4 rfl⟩
theorem subReg (x y : Reg) : Statement (.subReg x y) := fun _ => ⟨by decide, ofXY x y 0x5 0x5 rfl⟩
theorem shr (x y : Reg) : Statement (.shr x y) := fun _ => ⟨by decide, ofXY x y 0x6 0x6 rfl⟩
theorem subn (x y : Reg) : Statement (.subn x y) := fun _ => ⟨by decide, ofXY x y 0x7 0x7 rfl⟩
theorem shl (x y : Reg) : Statement (.shl x y) := fun _ => ⟨by decide, ofXY x y 0xE 0xE rfl⟩
theorem sneReg (x y : Reg) (n : BitVec 4) : Statement (.sneReg x y n) := fun _ => ⟨by decide, ofXYN 0x9 x y n _ rfl⟩
theorem ldI (nnn : BitVec 12) : Statement (.ldI nnn) := fun _ => ⟨by decide, ofNNN 0xA nnn _ rfl⟩
theorem jpV0 (nnn : BitVec 12) : Statement (.jpV0 nnn) := fun _ => ⟨by decide, ofNNN 0xB nnn _ rfl⟩
theorem rnd (x : Reg) (nn : Byte) : Statement (.rnd x nn) := fun _ => ⟨by decide, ofXNN 0xC x nn _ rfl⟩
theorem drw (x y : Reg) (n : BitVec 4) : Statement (.drw x y n) := fun _ => ⟨by decide, ofXYN 0xD x y n _ rfl⟩
theorem skp (x : Reg) : Statement (.skp x) := fun _ => ⟨by decide, ofX 0xE x 0x9E 0xE000 0x9E rfl rfl⟩
theorem sknp (x : Reg) : Statement (.sknp x) := fun _ => ⟨by decide, ofX 0xE x 0xA1 0xE000 0xA1 rfl rfl⟩
theorem ldVxDt (x : Reg) : Statement (.ldVxDt x) := fun _ => ⟨by decide, ofX 0xF x 0x07 0xF000 0x07 rfl rfl⟩
theorem ldVxK (x : Reg) : Statement (.ldVxK x) := fun _ => ⟨by decide, ofX 0xF x 0x0A 0xF000 0x0A rfl rfl⟩
theorem ldDtVx (x : Reg) : Statement (.ldDtVx x) := fun _ => ⟨by decide, ofX 0xF x 0x15 0xF000 0x15 rfl rfl⟩
theorem ldStVx (x : Reg) : Statement (.ldStVx x) := fun _ => ⟨by decide, ofX 0xF x 0x18 0xF000 0x18 rfl rfl⟩
theorem addI (x : Reg) : Statement (.addI x) := fun _ => ⟨by decide, ofX 0xF x 0x1E 0xF000 0x1E rfl rfl⟩
theorem ldF (x : Reg) : Statement (.ldF x) := fun _ => ⟨by decide, ofX 0xF x 0x29 0xF000 0x29 rfl rfl⟩
theorem ldB (x : Reg) : Statement (.ldB x) := fun _ => ⟨by decide, ofX 0xF x 0x33 0xF000 0x33 rfl rfl⟩
theorem stRegs (x : Reg) : Statement (.stRegs x) := fun _ => ⟨by decide, ofX 0xF x 0x55 0xF000 0x55 rfl rfl⟩
theorem ldRegs (x : Reg) : Statement (.ldRegs x) := fun _ => ⟨by decide, ofX 0xF x 0x65 0xF000 0x65 rfl rfl⟩
theorem nop (w : Word) : Statement (.nop w) := fun h => not_accepts_of_unrecognised (of_decide_eq_true h)

end Laws.RowMatch

end Sys2Proof
end

