-- ==== Sys2Proof/Tests/Slice0.lean ====
section
/-! SUPPORT. Tests of the model against spec/95_test_vectors.md and the patterns of 30_encoding.md R67, and witnesses for the hypotheses of the statements. -/

namespace Sys2Proof.Tests

open Sys2Proof Sys2Proof.Machine Sys2Proof.Config

/-- The state after one step of `s` with the table word `w` as its next instruction; `s` itself where it stops. -/
def after (w : Nat) (s : State) : State :=
  match step (s.withFetchWord 16 w) with
  | .next t => t
  | .fault _ => s
  | .refused _ => s

/-- The next state of an outcome, else the reset state. -/
def nextOr (r : Result) : State :=
  match r with
  | .next t => t
  | .fault _ => State.reset
  | .refused _ => State.reset

def goesOn (r : Result) : Bool :=
  match r with
  | .next _ => true
  | .fault _ => false
  | .refused _ => false

theorem eq_next_of_goesOn {r : Result} (h : goesOn r = true) : r = .next (nextOr r) := by
  cases r <;> first | rfl | cases h

/-- The reset state with some V registers set. -/
def regs (vs : List (Reg × Byte)) : State := vs.foldl (fun s p => s.setV p.1 p.2) State.reset

/-- A state with `I` set and bytes stored from there. -/
def data (i : Word) (bs : List Byte) (s : State) : State := { s.storeBytes i.toNat bs with index := i }

/-- A state with some cells turned on. -/
def cellsOn (cs : List (Nat × Nat)) (s : State) : State :=
  { s with fb := cs.foldl (fun fb c => (plot c.1 c.2 fb false).1) s.fb }

/-! ## WellFormed: its one check refuses a `nop` whose word is an instruction's (30_encoding.md R68) -/

theorem test_wellFormed_refuses_nop_family0 : Instr.wellFormed (.nop 0x00E0) = false := by decide
theorem test_wellFormed_refuses_nop_family1 : Instr.wellFormed (.nop 0x1234) = false := by decide
theorem test_wellFormed_refuses_nop_family8 : Instr.wellFormed (.nop 0x8124) = false := by decide
theorem test_wellFormed_refuses_nop_familyE : Instr.wellFormed (.nop 0xE29E) = false := by decide
theorem test_wellFormed_refuses_nop_familyF : Instr.wellFormed (.nop 0xF265) = false := by decide
theorem test_wellFormed_takes_unrecognised :
    [0x0000, 0x00E1, 0x8128, 0x812F, 0xE19F, 0xF1FF].all (fun w => Instr.wellFormed (.nop w)) = true := by decide

/-! ## Decode: words written out from the patterns of R67, one for each constructor -/

theorem test_decode_control :
    decodeWord 0x00EE = .ret ∧ decodeWord 0x1234 = .jp 0x234 ∧ decodeWord 0x2345 = .call 0x345 ∧
    decodeWord 0x3A05 = .seImm 10 0x05 ∧ decodeWord 0x4B06 = .sneImm 11 0x06 ∧
    decodeWord 0x5120 = .seReg 1 2 0 ∧ decodeWord 0x5127 = .seReg 1 2 7 ∧
    decodeWord 0x9340 = .sneReg 3 4 0 ∧ decodeWord 0x912F = .sneReg 1 2 15 ∧
    decodeWord 0xBFFF = .jpV0 0xFFF := by decide

theorem test_decode_alu :
    decodeWord 0x6A2C = .ldImm 10 0x2C ∧ decodeWord 0x7103 = .addImm 1 0x03 ∧
    decodeWord 0x8120 = .ldReg 1 2 ∧ decodeWord 0x8121 = .orReg 1 2 ∧ decodeWord 0x8122 = .andReg 1 2 ∧
    decodeWord 0x8123 = .xorReg 1 2 ∧ decodeWord 0x8AB4 = .addReg 10 11 ∧ decodeWord 0x8125 = .subReg 1 2 ∧
    decodeWord 0x8126 = .shr 1 2 ∧ decodeWord 0x8127 = .subn 1 2 ∧ decodeWord 0x812E = .shl 1 2 ∧
    decodeWord 0xC30F = .rnd 3 0x0F := by decide

theorem test_decode_index :
    decodeWord 0xA2F0 = .ldI 0x2F0 ∧ decodeWord 0xF11E = .addI 1 ∧ decodeWord 0xF329 = .ldF 3 ∧
    decodeWord 0xF033 = .ldB 0 ∧ decodeWord 0xF255 = .stRegs 2 ∧ decodeWord 0xFF65 = .ldRegs 15 := by decide

theorem test_decode_display_keys_timers :
    decodeWord 0x00E0 = .cls ∧ decodeWord 0xD7A5 = .drw 7 10 5 ∧ decodeWord 0xE29E = .skp 2 ∧
    decodeWord 0xE2A1 = .sknp 2 ∧ decodeWord 0xF407 = .ldVxDt 4 ∧ decodeWord 0xF30A = .ldVxK 3 ∧
    decodeWord 0xF415 = .ldDtVx 4 ∧ decodeWord 0xF418 = .ldStVx 4 := by decide

/-- The unrecognised words of 95_test_vectors.md 2.1. -/
theorem test_decode_unrecognised :
    [0x0000, 0x0123, 0x00E1, 0x00FF, 0x0FFF, 0x8128, 0x8129, 0x812A, 0x812B, 0x812C, 0x812D, 0x812F,
     0xE19F, 0xE100, 0xE1A0, 0xF1FF, 0xF100, 0xF166, 0xF108].all (fun w => decodeWord w = .nop w) = true := by decide

theorem test_encode_words :
    encode (.drw 7 10 5) = 0xD7A5 ∧ encode (.shl 1 2) = 0x812E ∧ encode (.ldRegs 15) = 0xFF65 ∧
    encode (.sneReg 1 2 15) = 0x912F ∧ encode (.nop 0x8128) = 0x8128 ∧ encode (.jpV0 0xFFF) = 0xBFFF := by decide

/-- R43: the byte at the lower address is the high byte; R60: an instruction has two bytes. -/
theorem test_decodeBytes_high_byte_first : decodeBytes [0x61, 0x2A, 0x00] = .ok (.ldImm 1 0x2A, [0x00]) := by rfl
theorem test_decodeBytes_truncated : decodeBytes [0x61] = .error .truncated := by rfl
theorem test_decodeTableWord : decodeTableWord 16 0x8124 = some (.addReg 1 2) := by decide

/-! ## The cycle (95_test_vectors.md 2.1, 2.2) -/

/-- An odd `pc` is legal, and the high byte comes first. -/
theorem test_fetch_odd_pc :
    let t := nextOr (step { State.reset.storeBytes 0x201 [0x61, 0x2A] with pc := 0x201 })
    t.v 1 = 0x2A ∧ t.pc = 0x203 := by decide

theorem test_fetch_at_FFF_faults :
    let t := nextOr (step { State.reset with pc := 0xFFF })
    t.pc = 0xFFF ∧ t.fault = .memoryOutOfRange ∧ t.faultInfo = 0x1000 := by decide

theorem test_fetch_at_10FE_faults :
    let t := nextOr (step { State.reset with pc := 0x10FE })
    t.pc = 0x10FE ∧ t.fault = .memoryOutOfRange ∧ t.faultInfo = 0x10FE := by decide

theorem test_nop : after 0x0000 State.reset = { State.reset with pc := 0x202 } := by decide

/-! ## Control flow (95_test_vectors.md 2.2) -/

theorem test_ret :
    let t := after 0x00EE { State.reset with sp := 1, stack := State.reset.stack.set 0 0x206 }
    t.pc = 0x206 ∧ t.sp = 0 := by decide

theorem test_ret_underflow :
    let t := after 0x00EE State.reset
    t.pc = 0x200 ∧ t.fault = .stackUnderflow ∧ t.faultInfo = 0x200 := by decide

theorem test_jp : (after 0x1FFF State.reset).pc = 0xFFF := by decide

theorem test_call :
    let t := after 0x2400 { State.reset with sp := 15 }
    t.pc = 0x400 ∧ t.sp = 16 ∧ t.stackAt 15 = 0x202 := by decide

theorem test_call_overflow :
    let t := after 0x2400 { State.reset with sp := 16 }
    t.pc = 0x200 ∧ t.sp = 16 ∧ t.fault = .stackOverflow ∧ t.faultInfo = 0x200 := by decide

theorem test_jpV0 : (after 0xBFFF (regs [(0, 0xFF)])).pc = 0x10FE := by decide

theorem test_seImm :
    (after 0x3A05 (regs [(10, 0x05)])).pc = 0x204 ∧ (after 0x3A05 (regs [(10, 0x06)])).pc = 0x202 := by decide

theorem test_sneImm :
    (after 0x4A05 (regs [(10, 0x05)])).pc = 0x202 ∧ (after 0x4A05 (regs [(10, 0x06)])).pc = 0x204 := by decide

theorem test_seReg :
    (after 0x5127 (regs [(1, 0x33), (2, 0x33)])).pc = 0x204 ∧ (after 0x512F (regs [(1, 0x33), (2, 0x34)])).pc = 0x202 := by
  decide

theorem test_sneReg :
    (after 0x9123 (regs [(1, 0x33), (2, 0x34)])).pc = 0x204 ∧ (after 0x9120 (regs [(1, 0x33), (2, 0x33)])).pc = 0x202 := by
  decide

/-! ## Arithmetic and logic (95_test_vectors.md 2.3) -/

theorem test_ldImm : (after 0x6F07 State.reset).v 15 = 0x07 := by decide

theorem test_addImm_wraps_without_flag :
    let t := after 0x7103 (regs [(1, 0xFE), (15, 0x55)])
    t.v 1 = 0x01 ∧ t.v 15 = 0x55 := by decide

theorem test_ldReg : (after 0x8120 (regs [(2, 0x55)])).v 1 = 0x55 := by decide

theorem test_orReg_leaves_VF :
    let t := after 0x8121 (regs [(1, 0xF0), (2, 0x0F), (15, 0x77)])
    t.v 1 = 0xFF ∧ t.v 15 = 0x77 := by decide

theorem test_andReg : (after 0x8122 (regs [(1, 0xF3), (2, 0x3F)])).v 1 = 0x33 := by decide

theorem test_xorReg : (after 0x8123 (regs [(1, 0xFF), (2, 0x0F)])).v 1 = 0xF0 := by decide

theorem test_addReg_carry :
    let t := after 0x8124 (regs [(1, 0xFF), (2, 0x01)])
    t.v 1 = 0x00 ∧ t.v 15 = 1 := by decide

/-- The flag wins over the result, and the old `VF` is the operand. -/
theorem test_addReg_VF :
    (after 0x8F24 (regs [(15, 0xFF), (2, 0x02)])).v 15 = 1 ∧
    (after 0x81F4 (regs [(1, 0x10), (15, 0xF5)])).v 1 = 0x05 := by decide

theorem test_subReg_borrow :
    let t := after 0x8125 (regs [(1, 0x05), (2, 0x0A)])
    t.v 1 = 0xFB ∧ t.v 15 = 0 := by decide

theorem test_subReg_equal_is_no_flag :
    let t := after 0x8125 (regs [(1, 0x07), (2, 0x07), (15, 0x01)])
    t.v 1 = 0x00 ∧ t.v 15 = 0 := by decide

theorem test_subn :
    let t := after 0x8127 (regs [(1, 0x05), (2, 0x0A)])
    t.v 1 = 0x05 ∧ t.v 15 = 1 := by decide

theorem test_shr_takes_VY :
    let t := after 0x8126 (regs [(2, 0x07), (1, 0xAA)])
    t.v 1 = 0x03 ∧ t.v 15 = 1 ∧ t.v 2 = 0x07 := by decide

theorem test_shl_flags_bit_0 :
    let t := after 0x812E (regs [(2, 0x80), (15, 0x01)])
    t.v 1 = 0x00 ∧ t.v 15 = 0 := by decide

theorem test_shl_takes_VY :
    let t := after 0x812E (regs [(2, 0x81)])
    t.v 1 = 0x02 ∧ t.v 15 = 1 := by decide

/-- Every draw masked with 00 is 00. -/
theorem test_rnd_masked :
    ∃ t, exec (.rnd 3 0x00) (regs [(3, 0x55)]) = .next t ∧ t.v 3 = 0x00 ∧ t.draws = 1 :=
  ⟨_, rfl, by simp, rfl⟩

/-! ## Index register and memory (95_test_vectors.md 2.4) -/

theorem test_ldI : (after 0xAFFF { State.reset with index := 0x1234 }).index = 0x0FFF := by decide

theorem test_addI_wraps_without_flag :
    let t := after 0xF11E { regs [(1, 0xFF), (15, 0x07)] with index := 0xFFFF }
    t.index = 0x00FE ∧ t.v 15 = 0x07 := by decide

theorem test_ldF_low_nibble : (after 0xF329 (regs [(3, 0x1A)])).index = 0x0082 := by decide

theorem test_ldB :
    let t := after 0xF033 (data 0x300 [] (regs [(0, 0xEA)]))
    t.bytesAt 0x300 3 = [2, 3, 4] ∧ t.index = 0x300 := by decide

theorem test_ldB_out_of_range :
    let t := after 0xF033 (data 0xFFE [] (regs [(0, 0x07)]))
    t.fault = .memoryOutOfRange ∧ t.faultInfo = 0x1000 ∧ t.bytesAt 0xFFE 2 = [0, 0] ∧ t.pc = 0x200 := by decide

theorem test_stRegs :
    let t := after 0xF255 (data 0x400 [] (regs [(0, 0x11), (1, 0x22), (2, 0x33), (3, 0x44)]))
    t.bytesAt 0x400 4 = [0x11, 0x22, 0x33, 0x00] ∧ t.index = 0x400 := by decide

theorem test_stRegs_no_partial_store :
    let t := after 0xF155 (data 0xFFF [] (regs [(0, 0xAB), (1, 0xCD)]))
    t.fault = .memoryOutOfRange ∧ t.faultInfo = 0x1000 ∧ t.byteAt 0xFFF = 0 := by decide

theorem test_ldRegs :
    let t := after 0xF265 (data 0x300 [2, 3, 4, 5] (regs [(3, 0x99)]))
    t.v 0 = 2 ∧ t.v 1 = 3 ∧ t.v 2 = 4 ∧ t.v 3 = 0x99 ∧ t.index = 0x300 := by decide

theorem test_ldRegs_reads_the_font :
    let t := after 0xF465 { State.reset with index := 0x050 }
    t.v 0 = 0xF0 ∧ t.v 1 = 0x90 ∧ t.v 2 = 0x90 ∧ t.v 3 = 0x90 ∧ t.v 4 = 0xF0 ∧ t.v 5 = 0 := by decide

/-! ## Display (95_test_vectors.md 2.5) -/

theorem test_cls :
    let t := after 0x00E0 (cellsOn [(0, 0), (31, 63)] (regs [(15, 0x03)]))
    t.fb = State.reset.fb ∧ t.v 15 = 0x03 := by decide +kernel

/-- The start wraps (67 mod 64, 34 mod 32). -/
theorem test_drw_start_wraps :
    let t := after 0xD011 (data 0x300 [0xC0] (regs [(0, 67), (1, 34)]))
    t.fb = (cellsOn [(2, 3), (2, 4)] State.reset).fb ∧ t.v 15 = 0 := by decide +kernel

/-- The seven 1 bits right of the edge are clipped and do not collide, and do not wrap. -/
theorem test_drw_clips :
    let s := cellsOn [(0, 63)] (data 0x300 [0x7F] (regs [(0, 63), (15, 1)]))
    (after 0xD011 s).fb = s.fb ∧ (after 0xD011 s).v 15 = 0 := by decide +kernel

/-! ## Keys and timers (95_test_vectors.md 2.6) -/

/-- No masking: key 15 hexadecimal is not key 5. -/
theorem test_skp :
    (after 0xE29E (keyDown 5 (regs [(2, 0x05)]))).pc = 0x204 ∧
    (after 0xE29E (keyDown 5 (regs [(2, 0x15)]))).pc = 0x202 := by decide

theorem test_sknp :
    (after 0xE2A1 (keyDown 5 (regs [(2, 0x05)]))).pc = 0x202 ∧
    (after 0xE2A1 (keyDown 5 (regs [(2, 0x15)]))).pc = 0x204 := by decide

theorem test_ldVxK_blocks : after 0xF30A State.reset = State.reset.withFetchWord 16 0xF30A := by decide

theorem test_ldVxK_takes_lastKey :
    let t := after 0xF30A (keyUp 9 (keyDown 9 (keyDown 2 State.reset)))
    t.pc = 0x202 ∧ t.v 3 = 9 := by decide

theorem test_ldVxDt : (after 0xF407 { State.reset with dt := 0x3C }).v 4 = 0x3C := by decide
theorem test_ldDtVx : (after 0xF415 (regs [(4, 0x3C)])).dt = 0x3C := by decide
theorem test_ldStVx : (after 0xF418 (regs [(4, 0x02)])).st = 0x02 := by decide

theorem test_ticks :
    let s := { State.reset with dt := 3, st := 1 }
    ((ticks 1 s).dt, (ticks 1 s).st) = (2, 0) ∧ ((ticks 4 s).dt, (ticks 4 s).st) = (0, 0) := by decide

/-! ## The host's moves (95_test_vectors.md 2.7, 2.8) -/

/-- `Advance(17)` from reset does 1 tick and 11 cycles and leaves 1/50 and 9/10. -/
theorem test_advance_periods :
    wholePeriods (State.reset.tickTotal 17) = 1 ∧ wholePeriods (State.reset.cycleTotal 17) = 11 ∧
    State.reset.tickTotal 17 - 1 = 1 / 50 ∧ State.reset.cycleTotal 17 - 11 = 9 / 10 := by
  refine ⟨wholePeriods_eq (b := 1 / 50) ?_ ?_ ?_, wholePeriods_eq (b := 9 / 10) ?_ ?_ ?_, ?_, ?_⟩ <;>
    norm_num [State.tickTotal, State.cycleTotal, State.reset, State.resetWith, tickHz, Params.default]

theorem test_advance_negative_is_refused :
    step { State.reset with schedule := [.advance (-1)] } = .refused .negativeElapsed := by rfl

theorem test_load_too_large :
    loadProgram (List.replicate 3585 0) State.reset = .error .romTooLarge := by
  rw [loadProgram, if_pos (by rw [List.length_replicate]; decide)]

theorem test_load_places_program_and_font :
    let t := load [0x12, 0x00] (regs [(3, 9)])
    t.bytesAt 0x200 3 = [0x12, 0x00, 0x00] ∧ t.bytesAt 0x4F 3 = [0x00, 0xF0, 0x90] ∧ t.bytesAt 0x9F 2 = [0x80, 0x00] ∧
    t.v 3 = 0 := by decide

theorem test_halted_machine_stops :
    step { State.reset with fault := .stackUnderflow, faultInfo := 0x202 } = .fault (.halted .stackUnderflow 0x202) := by
  rfl

/-! ## Witnesses: concrete states and operands that meet the hypotheses of a statement, at the boundary of each clause -/

theorem witness_DecodingAnEncodedInstructionGivesItBack :
    Instr.wellFormed (.drw 15 15 15) = true ∧ Instr.wellFormed (.nop 0x812F) = true := by decide

theorem witness_OpcodeMapSelectsTheInstruction :
    (⟨0xF00F, 0x800E⟩ : OpcodeRow) ∈ opcodeMap ∧ (⟨0xF00F, 0x800E⟩ : OpcodeRow).accepts 0x8FFE ∧
    (0x0FFF : Word) &&& 0xF000 = 0 ∧ (0x0FFF : Word) ≠ 0x00E0 ∧ (0x0FFF : Word) ≠ 0x00EE := by decide

theorem witness_FieldsAreTheNibblesOfTheWord :
    (0xFFFF : Word).toNat = 15 * 4096 + 15 * 256 + 15 * 16 + 15 ∧ (0xD7A5 : Word).toNat = 13 * 4096 + 7 * 256 + 10 * 16 + 5 := by
  decide

theorem witness_UnrecognisedWordsAreNoOperations :
    Word.unrecognised 0x812F ∧
    let s := { State.reset with pc := 0xFFE }
    s.pc.toNat ≤ 0xFFE ∧ Word.unrecognised (s.wordAt s.pc.toNat) := by decide

theorem witness_FetchIsBigEndian : State.pc { State.reset with pc := 0xFFE } = 0xFFE ∧ (0xFFE : Word).toNat ≤ 0xFFE := by
  decide

theorem witness_StepRunsTheDecodedInstruction :
    let s := { State.reset.storeBytes 0xFFE [0x6A, 0x2C] with pc := 0xFFE }
    s.schedule = [] ∧ State.schedule { s with schedule := [.cycle, .tick] } = .cycle :: [.tick] ∧
    s.fault = .none ∧ s.paused = false ∧ s.pc.toNat ≤ 0xFFE ∧
    decodeBytes [s.byteAt s.pc.toNat, s.byteAt (s.pc.toNat + 1)] = .ok (.ldImm 10 0x2C, []) :=
  ⟨rfl, rfl, rfl, rfl, by decide, rfl⟩

theorem witness_FetchPastMemoryFaults :
    0xFFF ≤ (State.pc { State.reset with pc := 0xFFF }).toNat ∧
    0xFFF ≤ (State.pc { State.reset with pc := 0x1000 }).toNat ∧
    0xFFF ≤ (State.pc { State.reset with pc := 0xFFFF }).toNat := by decide

theorem witness_FaultsArePrecise :
    let s := State.reset.storeBytes 0x200 [0x00, 0xEE]
    s.fault = .none ∧ cycle s = .next (nextOr (cycle s)) ∧ (nextOr (cycle s)).fault ≠ .none :=
  ⟨rfl, eq_next_of_goesOn (by decide), by decide⟩

theorem witness_InstructionsFaultExactlyAsTabled :
    faultOf .ret { State.reset with pc := 0x202 } = some (.stackUnderflow, 0x200) ∧
    faultOf (.call 0x400) { State.reset with pc := 0x202, sp := 16 } = some (.stackOverflow, 0x200) ∧
    faultOf (.ldB 0) { State.reset with index := 0xFFE } = some (.memoryOutOfRange, 0x1000) ∧
    faultOf (.ldB 0) { State.reset with index := 0xFFD } = none ∧
    faultOf (.stRegs 15) { State.reset with index := 0xFF1 } = some (.memoryOutOfRange, 0x1000) ∧
    faultOf (.ldRegs 15) { State.reset with index := 0xFF0 } = none ∧
    faultOf (.drw 0 1 0) { State.reset with index := 0xFFFF } = none ∧
    faultOf (.drw 0 1 1) { State.reset with index := 0xFFFF } = some (.memoryOutOfRange, 0xFFFF) := by decide

theorem witness_ReturnPopsTheStack : State.sp { State.reset with sp := 1 } ≠ 0 ∧ State.reset.sp = 0 := by decide

theorem witness_CallPushesTheReturnAddress :
    State.reset.stack.length = State.reset.params.stackDepth ∧
    State.sp { State.reset with sp := 15 } < State.reset.params.stackDepth ∧
    State.sp { State.reset with sp := 16 } = State.reset.params.stackDepth := by decide

theorem witness_CallThenReturnComesBack :
    let s := { State.reset with sp := 15 }
    s.stack.length = s.params.stackDepth ∧ s.sp < s.params.stackDepth := by decide

theorem witness_VFIsAFlagOfSixInstructions :
    (let s := regs [(1, 0xFF), (2, 0x01)]
     s.fault = .none ∧ (∃ t, exec (.addReg 1 2) s = .next t ∧ t.fault = .none) ∧ writesFlag (.addReg 1 2)) ∧
    (let s := regs [(15, 0x01)]
     s.fault = .none ∧ (∃ t, exec (.ldImm 15 7) s = .next t ∧ t.v Reg.vf ≠ s.v Reg.vf) ∧ ¬ writesFlag (.ldImm 15 7)) :=
  ⟨⟨rfl, ⟨_, rfl, rfl⟩, trivial⟩, rfl, ⟨_, rfl, by decide⟩, id⟩

theorem witness_GlyphAddressFromLowNibble : State.reset.params.valid ∧ (State.reset.params.fontBase = 0x50) := by
  refine ⟨⟨by decide, by decide, ?_⟩, rfl⟩
  norm_num [State.reset, State.resetWith, Params.default]

theorem witness_StoreDecimalDigits :
    Memory.wf State.reset.params State.reset.mem ∧
    (State.index { State.reset with index := 0xFFD }).toNat ≤ 0xFFD ∧
    0xFFD < (State.index { State.reset with index := 0xFFE }).toNat := by decide

theorem witness_StoreRegistersBlock :
    Memory.wf State.reset.params State.reset.mem ∧
    (State.index { State.reset with index := 0xFF0 }).toNat + (15 : Reg).val ≤ 0xFFF ∧
    0xFFF < (State.index { State.reset with index := 0xFF1 }).toNat + (15 : Reg).val := by decide

theorem witness_LoadRegistersBlock :
    (State.index { State.reset with index := 0xFFF }).toNat + (0 : Reg).val ≤ 0xFFF ∧
    0xFFF < (State.index { State.reset with index := 0x1000 }).toNat + (0 : Reg).val := by decide

theorem witness_StoredCodeIsFetchedNext :
    let s := { State.reset with pc := 0xFFE, index := 0xFFE }
    Memory.wf s.params s.mem ∧ 1 ≤ (1 : Reg).val ∧ s.index = s.pc ∧ s.index.toNat + (1 : Reg).val ≤ 0xFFF := by decide

theorem witness_MemoriesThatReadAlikeAreEqual :
    Memory.wf Params.default [(0x50, 0x01), (0xFFF, 0x02)] ∧
    ∀ a, Memory.read Params.default [(0x50, 0x01), (0xFFF, 0x02)] a = Memory.read Params.default [(0x50, 0x01), (0xFFF, 0x02)] a :=
  ⟨by decide, fun _ => rfl⟩

theorem witness_DrawTogglesTheSpriteCells :
    ((0xFF1 : Word).toNat + (15 : BitVec 4).toNat - 1 ≤ 0xFFF) ∧
    ((15 : BitVec 4) ≠ 0 ∧ 0xFFF < (0xFF2 : Word).toNat + (15 : BitVec 4).toNat - 1) ∧
    (let s := cellsOn [(0, 0)] (data 0x300 [0x80] State.reset)
     s.spriteBit 0 1 1 0 0 ∧ s.fb.cell 0 0 = true) ∧
    (∀ row column, row < 32 → column < 64 → State.reset.fb.cell row column ≠ true) :=
  ⟨by decide, by decide, by decide, fun row column hr hc => by
    simp [Framebuffer.cell, hr, hc, State.reset, State.resetWith]⟩

theorem witness_DrawingTwiceErases :
    let s := data 0x300 [0xC0] State.reset
    let t := nextOr (exec (.drw 0 1 1) s)
    (0 : Reg) ≠ Reg.vf ∧ (1 : Reg) ≠ Reg.vf ∧ s.index.toNat + (1 : BitVec 4).toNat - 1 ≤ 0xFFF ∧
    exec (.drw 0 1 1) s = .next t ∧ exec (.drw 0 1 1) t = .next (nextOr (exec (.drw 0 1 1) t)) :=
  ⟨by decide, by decide, by decide, rfl, eq_next_of_goesOn (by decide)⟩

theorem witness_KeySkips :
    (regs [(2, 15)]).v 2 = 15 ∧ ((regs [(2, 15)]).v 2).toNat = (15 : Key).val ∧ 15 < ((regs [(2, 16)]).v 2).toNat := by
  decide

theorem witness_KeyWaitBlocksOrLoadsLastKey :
    (∃ k : Key, (keyDown 15 State.reset).keys.get k = true) ∧ (∀ k : Key, State.reset.keys.get k = false) ∧
    (let s := { State.reset.storeBytes 0xFFE [0xF3, 0x0A] with pc := 0xFFE }
     s.pc.toNat ≤ 0xFFE ∧ decodeWord (s.wordAt s.pc.toNat) = .ldVxK 3) := by decide

theorem witness_StateIsWrittenOnlyByItsInstructions :
    let s := data 0x300 [] (regs [(0, 0xEA)])
    exec (.ldB 0) s = .next (nextOr (exec (.ldB 0) s)) ∧ (nextOr (exec (.ldB 0) s)).byteAt 0x300 ≠ s.byteAt 0x300 :=
  ⟨rfl, by decide⟩

theorem witness_OnlyControlTransfersMovePc :
    let s := regs [(10, 0x05)]
    let t := nextOr (exec (.seImm 10 5) s)
    s.fault = .none ∧ exec (.seImm 10 5) s = .next t ∧ t.pc ≠ s.pc ∧ t.fault = .none :=
  ⟨rfl, rfl, by decide, by decide⟩

/-- A state of the invariant that is not the reset state, and a step of it. -/
theorem witness_EveryStepKeepsTheInvariant :
    let s := { State.reset with pc := 0xFFE, tickAcc := 1 / 2 }
    s.Inv ∧ step s = .next (nextOr (step s)) := by
  refine ⟨⟨⟨by decide, by decide, ?_⟩, by decide, by decide, by decide, ?_, by decide, ?_, ?_, ?_, ?_, fun _ => rfl⟩,
    eq_next_of_goesOn (by decide)⟩
  · norm_num [State.reset, State.resetWith, Params.default]
  · exact fun j hj => absurd hj (Nat.not_lt_zero j)
  all_goals norm_num [State.reset, State.resetWith]

theorem witness_EveryStepKeepsMemoryCanonical :
    let s := State.reset.storeBytes 0x200 [0xF0, 0x33]
    Memory.wf s.params s.mem ∧ step s = .next (nextOr (step s)) :=
  ⟨by decide, eq_next_of_goesOn (by decide)⟩

theorem witness_HaltedMachineOnlyLoadRevives :
    let s := { State.reset with fault := .stackUnderflow, faultInfo := 0x200 }
    s.fault ≠ .none ∧ s.schedule = [] ∧ (0 : ℚ) ≤ 0 ∧
    step { s with schedule := [.keyDown 3] } = .next (nextOr (step { s with schedule := [.keyDown 3] })) ∧
    ∀ program, Move.keyDown 3 ≠ .load program :=
  ⟨by decide, rfl, le_refl _, rfl, fun _ h => by cases h⟩

theorem witness_PausedMachineWaits :
    let s := togglePause State.reset
    s.paused = true ∧ s.fault = .none ∧ s.schedule = [] ∧ (0 : ℚ) ≤ 0 :=
  ⟨rfl, rfl, rfl, le_refl _⟩

theorem witness_TicksLowerTheTimersClamped :
    let s := { State.reset with dt := 1, schedule := [.tick] }
    s.running = true ∧ s.schedule = .tick :: [] := ⟨rfl, rfl⟩

/-- A cycle of a machine whose latch is clear, and a machine whose latch is set. -/
theorem witness_AdvanceDoesTicksThenCycles_cycles :
    (State.reset.fault = .none ∧ cycle State.reset = .next (nextOr (cycle State.reset))) ∧
    State.fault { State.reset with fault := .stackUnderflow } ≠ .none :=
  ⟨⟨rfl, eq_next_of_goesOn (by decide)⟩, by decide⟩

/-- `Advance(17)` from reset: 1 tick and 11 cycles. -/
theorem witness_AdvanceDoesTicksThenCycles :
    State.reset.running = true ∧ (0 : ℚ) ≤ 17 ∧
    State.reset.tickAcc + 17 * 60 / 1000 = (1 : ℕ) + 1 / 50 ∧ (0 : ℚ) ≤ 1 / 50 ∧ (1 / 50 : ℚ) < 1 ∧
    State.reset.cycleAcc + 17 * State.reset.params.cycleHz / 1000 = (11 : ℕ) + 9 / 10 ∧ (0 : ℚ) ≤ 9 / 10 ∧ (9 / 10 : ℚ) < 1 := by
  refine ⟨rfl, ?_, ?_, ?_, ?_, ?_, ?_, ?_⟩ <;> norm_num [State.reset, State.resetWith, Params.default]

theorem witness_ExactPeriodsLeaveNoResidual :
    State.reset.running = true ∧ 0 < State.reset.params.cycleHz ∧ 0 ≤ State.reset.tickAcc ∧ State.reset.cycleAcc = 0 := by
  refine ⟨rfl, ?_, ?_, rfl⟩ <;> norm_num [State.reset, State.resetWith, Params.default]

/-- Half a cycle period twice, and one whole period (S6). -/
theorem witness_SplitAdvancesLoseNoTime :
    let s := State.reset
    let t := nextOr (advance (5 / 7) s)
    s.running = true ∧ t.running = true ∧ 0 < s.params.cycleHz ∧ 0 ≤ s.tickAcc ∧ 0 ≤ s.cycleAcc ∧ (0 : ℚ) ≤ 5 / 7 ∧
    advance (5 / 7) s = .next t ∧ advance (5 / 7) t = .next (nextOr (advance (5 / 7) t)) ∧
    advance (5 / 7 + 5 / 7) s = .next (nextOr (advance (5 / 7 + 5 / 7) s)) := by
  refine ⟨rfl, by decide +kernel, ?_, ?_, ?_, ?_, eq_next_of_goesOn (by decide +kernel),
    eq_next_of_goesOn (by decide +kernel), eq_next_of_goesOn (by decide +kernel)⟩ <;> norm_num [State.reset, State.resetWith, Params.default]

theorem witness_LoadPlacesTheProgramOrFails :
    (List.replicate 3584 (0 : Byte)).length ≤ 3584 ∧ 3584 < (List.replicate 3585 (0 : Byte)).length ∧
    (0x1FF < 0x200 ∨ 0x200 + (List.replicate 3584 (0 : Byte)).length ≤ 0x1FF) := by
  rw [List.length_replicate, List.length_replicate]
  omega

/-- A faulting cycle in the core's own turn, a scheduled one, and the one cycle of `Advance(10/7)`; and a cycle that does
not fault. -/
theorem witness_RunningStepsGoOnAndFaultAsTabled :
    let s := State.reset.storeBytes 0x200 [0x00, 0xEE]
    s.fault = .none ∧
    (s.schedule = [] ∧ s.performsCycleAt s ∧ faultOfCycle s = some (.stackUnderflow, 0x200)) ∧
    State.performsCycleAt { s with schedule := [.cycle, .tick] } { s with schedule := [.tick] } ∧
    ((0 : ℚ) ≤ 10 / 7 ∧
      ∃ u, State.performsCycleAt { s with schedule := [.advance (10 / 7)] } u ∧
        faultOfCycle u = some (.stackUnderflow, 0x200)) ∧
    (State.reset.performsCycleAt State.reset ∧ faultOfCycle State.reset = none) := by
  refine ⟨rfl, ⟨rfl, ⟨rfl, rfl, rfl⟩, by decide⟩, ⟨rfl, rfl, rfl⟩, ⟨?_, _, ⟨rfl, ?_, 0, ?_, rfl⟩, ?_⟩,
    ⟨rfl, rfl, rfl⟩, by decide⟩
  · norm_num
  all_goals decide +kernel

/-- A fetch fault is a fault of the cycle. -/
theorem test_faultOfCycle_fetch :
    faultOfCycle { State.reset with pc := 0xFFF } = some (.memoryOutOfRange, 0x1000) ∧
    faultOfCycle { State.reset with pc := 0xFFE } = none := by decide

theorem test_safeRun : safeRun 1 State.reset :=
  ⟨rfl, nextOr (step State.reset), eq_next_of_goesOn (by decide), by show State.fault _ = _; decide⟩

theorem witness_UnusedStackEntriesAreUnobservable :
    (let s := { State.reset with sp := 1 }
     let t := { s with stack := s.stack.set 1 0x0ABC }
     sameBelowSp s t ∧ s ≠ t ∧ step s = .next (nextOr (step s))) ∧
    (let s := { State.reset with fault := .stackUnderflow }
     sameBelowSp s { s with stack := s.stack.set 0 0x0ABC } ∧ step s = .fault (.halted .stackUnderflow 0)) ∧
    (let s := { State.reset with schedule := [.advance (-1)] }
     sameBelowSp s { s with stack := s.stack.set 0 0x0ABC } ∧ step s = .refused .negativeElapsed) :=
  ⟨⟨by decide, by decide, eq_next_of_goesOn (by decide)⟩, ⟨by decide, rfl⟩, by decide, rfl⟩

theorem witness_LastKeyIsUnobservableWithNoKeyDown :
    (∀ j, State.reset.keys.get j = false) ∧ step State.reset = .next (nextOr (step State.reset)) :=
  ⟨by decide, eq_next_of_goesOn (by decide)⟩

theorem witness_EndedRunStaysPut :
    State.ended { State.reset.storeBytes 0xFFE [0x1F, 0xFE] with pc := 0xFFE } := by decide

end Sys2Proof.Tests
end

namespace Sys2Proof.Machine

/-! ## Memory: the instruction fetch (20_memory.md) -/

/-- The byte at the lower address is the high byte of the word, the one after it the low byte (R43). -/
theorem toNat_wordAt (s : State) (a : Nat) :
    (s.wordAt a).toNat = (s.byteAt a).toNat * 256 + (s.byteAt (a + 1)).toNat :=
  toNat_wordOfBytes (s.byteAt a) (s.byteAt (a + 1))

/-- Settles O7: the word is the one at `pc`, which a cycle whose fetch fits executes. -/
theorem fetchIsBigEndian : Obligations.FetchIsBigEndian := by
  intro s hpc
  exact ⟨s.wordAt s.pc.toNat, toNat_wordAt s s.pc.toNat, cycle_of_le hpc⟩

end Sys2Proof.Machine

namespace Sys2Proof

/-! ## Encoding: a decoded word stands in its row of the opcode map (30_encoding.md) -/

/-! A word is put together again from its fields (R61, R62). -/

section
variable {w : Word} {op : BitVec 4}

theorem encodeNNN_fields (h : fieldOp w = op) : encodeNNN op (fieldNNN w) = w := by
  subst h
  apply BitVec.eq_of_toNat_eq
  rw [toNat_encodeNNN, toNat_fieldOp, toNat_fieldNNN]
  omega

theorem encodeXNN_fields (h : fieldOp w = op) : encodeXNN op (fieldX w) (fieldNN w) = w := by
  subst h
  apply BitVec.eq_of_toNat_eq
  rw [toNat_encodeXNN, toNat_fieldOp, val_fieldX, toNat_fieldNN]
  omega

theorem encodeX_fields {sub : Byte} (h : fieldOp w = op) (hsub : fieldNN w = sub) :
    encodeX op (fieldX w) sub = w :=
  hsub ▸ encodeXNN_fields h

theorem encodeXYN_fields {n : BitVec 4} (h : fieldOp w = op) (hn : fieldN w = n) :
    encodeXYN op (fieldX w) (fieldY w) n = w := by
  subst h hn
  apply BitVec.eq_of_toNat_eq
  rw [toNat_encodeXYN, toNat_fieldOp, val_fieldX, val_fieldY, toNat_fieldN]
  omega

end

/-! What a mask keeps of a word, by its fields. -/

theorem and_F000_of_fieldOp {w : Word} {op : BitVec 4} (h : fieldOp w = op) (pattern : Word)
    (hp : pattern.toNat = op.toNat * 0x1000) : w &&& 0xF000#16 = pattern :=
  and_F000_of_op (by rw [← toNat_fieldOp, h]) pattern hp

theorem and_000F_eq_setWidth_fieldN (w : Word) : w &&& 0x000F = (fieldN w).setWidth 16 := by
  apply BitVec.eq_of_toNat_eq
  refine (toNat_and_000F w).trans ?_
  rw [BitVec.toNat_setWidth, toNat_fieldN]
  omega

theorem and_00FF_eq_setWidth_fieldNN (w : Word) : w &&& 0x00FF = (fieldNN w).setWidth 16 := by
  apply BitVec.eq_of_toNat_eq
  refine (toNat_and_00FF w).trans ?_
  rw [BitVec.toNat_setWidth, toNat_fieldNN]
  omega

theorem fieldOp_eq_zero_of_and {w : Word} (h : w &&& 0xF000 = 0) : fieldOp w = 0 := by
  have hw : w.toNat / 0x1000 * 0x1000 = 0 := (toNat_and_F000 w).symm.trans (congrArg BitVec.toNat h)
  apply BitVec.eq_of_toNat_eq
  rw [toNat_fieldOp]
  simpa using hw

/-! Each family of the decoder answers a well-formed instruction whose word is the one decoded. -/

/-- The instruction is well-formed and `w` is its word. -/
def Instr.HasWord (i : Instr) (w : Word) : Prop := i.wellFormed = true ∧ encode i = w

theorem hasWord_nop {w : Word} (h : Word.unrecognised w) : (Instr.nop w).HasWord w := ⟨decide_eq_true h, rfl⟩

theorem hasWord_decodeFamily0 {w : Word} (hop : fieldOp w = 0x0) : (decodeFamily0 w).HasWord w := by
  unfold decodeFamily0
  split
  case isTrue hcls => exact ⟨rfl, hcls.symm⟩
  case isFalse hcls =>
    split
    case isTrue hret => exact ⟨rfl, hret.symm⟩
    case isFalse hret => exact hasWord_nop (.inl ⟨and_F000_of_fieldOp hop _ rfl, hcls, hret⟩)

theorem hasWord_decodeFamily8 {w : Word} (hop : fieldOp w = 0x8) : (decodeFamily8 w).HasWord w := by
  unfold decodeFamily8
  split
  case h_10 =>
    refine hasWord_nop (.inr (.inl ⟨and_F000_of_fieldOp hop _ rfl, ?_⟩))
    rw [and_000F_eq_setWidth_fieldN]
    generalize fieldN w = n at *
    revert n
    decide
  all_goals exact ⟨rfl, encodeXYN_fields hop ‹_›⟩

theorem hasWord_decodeFamilyE {w : Word} (hop : fieldOp w = 0xE) : (decodeFamilyE w).HasWord w := by
  unfold decodeFamilyE
  split
  case h_3 =>
    refine hasWord_nop (.inr (.inr (.inl ⟨and_F000_of_fieldOp hop _ rfl, ?_⟩)))
    rw [and_00FF_eq_setWidth_fieldNN]
    generalize fieldNN w = nn at *
    revert nn
    decide
  all_goals exact ⟨rfl, encodeX_fields hop ‹_›⟩

theorem hasWord_decodeFamilyF {w : Word} (hop : fieldOp w = 0xF) : (decodeFamilyF w).HasWord w := by
  unfold decodeFamilyF
  split
  case h_10 =>
    refine hasWord_nop (.inr (.inr (.inr ⟨and_F000_of_fieldOp hop _ rfl, ?_⟩)))
    rw [and_00FF_eq_setWidth_fieldNN]
    generalize fieldNN w = nn at *
    revert nn
    decide
  all_goals exact ⟨rfl, encodeX_fields hop ‹_›⟩

/-- A word decodes to a well-formed instruction whose word it is (R60 to R68). -/
theorem hasWord_decodeWord (w : Word) : (decodeWord w).HasWord w := by
  unfold decodeWord
  split
  case h_1 hop => exact hasWord_decodeFamily0 hop
  case h_9 hop => exact hasWord_decodeFamily8 hop
  case h_15 hop => exact hasWord_decodeFamilyE hop
  case h_16 =>
    refine hasWord_decodeFamilyF ?_
    generalize fieldOp w = op at *
    revert op
    decide
  case h_2 hop | h_3 hop | h_11 hop | h_12 hop => exact ⟨rfl, encodeNNN_fields hop⟩
  case h_4 hop | h_5 hop | h_7 hop | h_8 hop | h_13 hop => exact ⟨rfl, encodeXNN_fields hop⟩
  case h_6 hop | h_10 hop | h_14 hop => exact ⟨rfl, encodeXYN_fields hop rfl⟩

/-! The rows of the opcode map (R67). -/

namespace Laws.RowMatch

/-- The family `RowMatch` over all instructions. -/
theorem statement_all : ∀ i : Instr, Statement i
  | .cls => cls | .ret => ret | .jp nnn => jp nnn | .call nnn => call nnn
  | .seImm x nn => seImm x nn | .sneImm x nn => sneImm x nn | .seReg x y n => seReg x y n
  | .ldImm x nn => ldImm x nn | .addImm x nn => addImm x nn
  | .ldReg x y => ldReg x y | .orReg x y => orReg x y | .andReg x y => andReg x y | .xorReg x y => xorReg x y
  | .addReg x y => addReg x y | .subReg x y => subReg x y | .shr x y => shr x y | .subn x y => subn x y
  | .shl x y => shl x y | .sneReg x y n => sneReg x y n
  | .ldI nnn => ldI nnn | .jpV0 nnn => jpV0 nnn | .rnd x nn => rnd x nn | .drw x y n => drw x y n
  | .skp x => skp x | .sknp x => sknp x | .ldVxDt x => ldVxDt x | .ldVxK x => ldVxK x
  | .ldDtVx x => ldDtVx x | .ldStVx x => ldStVx x | .addI x => addI x | .ldF x => ldF x
  | .ldB x => ldB x | .stRegs x => stRegs x | .ldRegs x => ldRegs x | .nop w => nop w

end Laws.RowMatch

theorem accepts_of_rowOf_decodeWord {w : Word} {r : OpcodeRow} (h : rowOf (decodeWord w) = some r) :
    r ∈ opcodeMap ∧ r.accepts w := by
  obtain ⟨hwf, henc⟩ := hasWord_decodeWord w
  have hrow := Laws.RowMatch.statement_all (decodeWord w) hwf
  rwa [h, henc] at hrow

theorem not_accepts_of_rowOf_decodeWord_eq_none {w : Word} (h : rowOf (decodeWord w) = none) :
    ∀ r ∈ opcodeMap, ¬ r.accepts w := by
  obtain ⟨hwf, henc⟩ := hasWord_decodeWord w
  have hrow := Laws.RowMatch.statement_all (decodeWord w) hwf
  rwa [h, henc] at hrow

/-- Two different rows of the opcode map differ in a bit that both masks select. -/
theorem eq_of_pattern_and_mask_eq :
    ∀ r ∈ opcodeMap, ∀ q ∈ opcodeMap, r.pattern &&& q.mask = q.pattern &&& r.mask → r = q := by
  decide

theorem eq_of_accepts {w : Word} {r q : OpcodeRow} (hr : r ∈ opcodeMap) (hq : q ∈ opcodeMap) (hrw : r.accepts w)
    (hqw : q.accepts w) : r = q := by
  apply eq_of_pattern_and_mask_eq r hr q hq
  calc r.pattern &&& q.mask
      = w &&& r.mask &&& q.mask := by rw [hrw]
    _ = w &&& q.mask &&& r.mask := by rw [BitVec.and_assoc, BitVec.and_comm r.mask, ← BitVec.and_assoc]
    _ = q.pattern &&& r.mask := by rw [hqw]

/-- The decoder selects the row that accepts the word (R67). -/
theorem accepts_iff_rowOf_decodeWord (w : Word) {r : OpcodeRow} (hr : r ∈ opcodeMap) :
    r.accepts w ↔ rowOf (decodeWord w) = some r := by
  refine ⟨fun hrw => ?_, fun h => (accepts_of_rowOf_decodeWord h).2⟩
  cases h : rowOf (decodeWord w) with
  | none => exact absurd hrw (not_accepts_of_rowOf_decodeWord_eq_none h r hr)
  | some q =>
    obtain ⟨hq, hqw⟩ := accepts_of_rowOf_decodeWord h
    rw [eq_of_accepts hr hq hrw hqw]

theorem decodeWord_of_family0 {w : Word} (hop : fieldOp w = 0) (hcls : w ≠ 0x00E0) (hret : w ≠ 0x00EE) :
    decodeWord w = .nop w := by
  rw [decodeWord, hop]
  exact (if_neg hcls).trans (if_neg hret)

/-- Settles O3: the rows are disjoint under their common masks, and the row of a decoded word accepts the word. -/
theorem opcodeMapSelectsTheInstruction : Obligations.OpcodeMapSelectsTheInstruction := by
  refine ⟨rfl, by decide, ?_, ?_, ?_⟩
  · exact fun _ _ _ => eq_of_accepts
  · exact fun w _ => accepts_iff_rowOf_decodeWord w
  · exact fun _ h => decodeWord_of_family0 (fieldOp_eq_zero_of_and h)

end Sys2Proof

namespace Sys2Proof

/-! ## Control flow: jump and immediate skips (40_control_flow.md) -/

/-- The mask of a family that its top nibble alone selects keeps that nibble (R67). -/
theorem fieldOp_of_and_F000 {w pattern : Word} (h : w &&& 0xF000 = pattern) : fieldOp w = fieldOp pattern := by
  have hw : (w &&& 0xF000).toNat = w.toNat / 0x1000 * 0x1000 := toNat_and_F000 w
  subst h
  apply BitVec.eq_of_toNat_eq
  rw [toNat_fieldOp, toNat_fieldOp, hw]
  omega

theorem decodeWord_of_family1 {w : Word} (hop : fieldOp w = 0x1) : decodeWord w = .jp (fieldNNN w) := by
  rw [decodeWord, hop]
  rfl

theorem decodeWord_of_family3 {w : Word} (hop : fieldOp w = 0x3) :
    decodeWord w = .seImm (fieldX w) (fieldNN w) := by
  rw [decodeWord, hop]
  rfl

theorem decodeWord_of_family4 {w : Word} (hop : fieldOp w = 0x4) :
    decodeWord w = .sneImm (fieldX w) (fieldNN w) := by
  rw [decodeWord, hop]
  rfl

end Sys2Proof

namespace Sys2Proof.Machine

theorem exec_jp (nnn : BitVec 12) (s : State) : exec (.jp nnn) s = .next { s with pc := address nnn } := rfl

theorem exec_seImm (x : Reg) (nn : Byte) (s : State) :
    exec (.seImm x nn) s = .next (s.skipIf (s.v x == nn)) := rfl

theorem exec_sneImm (x : Reg) (nn : Byte) (s : State) :
    exec (.sneImm x nn) s = .next (s.skipIf (s.v x != nn)) := rfl

theorem State.skipIf_beq (s : State) (a b : Byte) :
    s.skipIf (a == b) = if a = b then { s with pc := s.pc + 2 } else s := by
  by_cases h : a = b
  · rw [beq_iff_eq.2 h, if_pos h]
    rfl
  · rw [beq_false_of_ne h, if_neg h]
    rfl

theorem State.skipIf_bne (s : State) (a b : Byte) :
    s.skipIf (a != b) = if a = b then s else { s with pc := s.pc + 2 } := by
  by_cases h : a = b
  · rw [bne, beq_iff_eq.2 h, if_pos h]
    rfl
  · rw [bne, beq_false_of_ne h, if_neg h]
    rfl

/-- If a row's words decode to an instruction form of that row, no other word does, as no two rows overlap (R67). -/
theorem decodesAs_of_row {mask pattern : Word} {i : Word → Instr} (hr : ⟨mask, pattern⟩ ∈ opcodeMap)
    (hrow : ∀ w, rowOf (i w) = some ⟨mask, pattern⟩) (hdec : ∀ w, w &&& mask = pattern → decodeWord w = i w) :
    decodesAs mask pattern i := by
  refine fun w => ⟨hdec w, fun h => (accepts_iff_rowOf_decodeWord w hr).2 ?_⟩
  rw [h, hrow]

theorem decodesAs_jp : decodesAs 0xF000 0x1000 (fun w => .jp (fieldNNN w)) :=
  decodesAs_of_row (by decide) (fun _ => rfl) fun _ h => decodeWord_of_family1 (fieldOp_of_and_F000 h)

theorem decodesAs_seImm : decodesAs 0xF000 0x3000 (fun w => .seImm (fieldX w) (fieldNN w)) :=
  decodesAs_of_row (by decide) (fun _ => rfl) fun _ h => decodeWord_of_family3 (fieldOp_of_and_F000 h)

theorem decodesAs_sneImm : decodesAs 0xF000 0x4000 (fun w => .sneImm (fieldX w) (fieldNN w)) :=
  decodesAs_of_row (by decide) (fun _ => rfl) fun _ h => decodeWord_of_family4 (fieldOp_of_and_F000 h)

/-- Settles O13: the words of the row are the jumps, and the target is the address field zero-extended. -/
theorem jumpSetsPc : Obligations.JumpSetsPc := by
  refine ⟨decodesAs_jp, fun s nnn => ?_⟩
  exact ⟨_, exec_jp nnn s, toNat_address nnn, rfl⟩

/-- Settles O17: the words of the two rows are the skips, which split on whether `V[X]` is NN. -/
theorem immediateSkips : Obligations.ImmediateSkips := by
  refine ⟨decodesAs_seImm, decodesAs_sneImm, fun s x nn => ⟨?_, ?_⟩⟩
  · rw [exec_seImm, State.skipIf_beq]
  · rw [exec_sneImm, State.skipIf_bne]

end Sys2Proof.Machine

namespace Sys2Proof

/-! ## Arithmetic and logic: loads, sums, logic and shifts (41_alu.md) -/

theorem decodeWord_of_family6 {w : Word} (hop : fieldOp w = 0x6) :
    decodeWord w = .ldImm (fieldX w) (fieldNN w) := by
  rw [decodeWord, hop]
  rfl

theorem decodeWord_of_family7 {w : Word} (hop : fieldOp w = 0x7) :
    decodeWord w = .addImm (fieldX w) (fieldNN w) := by
  rw [decodeWord, hop]
  rfl

theorem decodeWord_of_family8 {w : Word} (hop : fieldOp w = 0x8) : decodeWord w = decodeFamily8 w := by
  rw [decodeWord, hop]
  rfl

/-- The mask of family 8 keeps the top nibble (R65). -/
theorem fieldOp_and_F00F (w : Word) : fieldOp (w &&& 0xF00F) = fieldOp w := by
  simp only [fieldOp, BitVec.extractLsb'_and]
  exact BitVec.and_allOnes

/-- The mask of family 8 keeps the low nibble (R65). -/
theorem fieldN_and_F00F (w : Word) : fieldN (w &&& 0xF00F) = fieldN w := by
  simp only [fieldN, BitVec.extractLsb'_and]
  exact BitVec.and_allOnes

/-- The bytes' difference as the rules write it (R107, R109): no term is negative. -/
theorem toNat_byte_sub (a b : Byte) : (a - b).toNat = (a.toNat + 256 - b.toNat) % 256 := by
  rw [BitVec.toNat_sub']
  omega

theorem toNat_byte_ushiftRight_one (b : Byte) : (b >>> 1).toNat = b.toNat / 2 :=
  Nat.shiftRight_eq_div_pow b.toNat 1

theorem toNat_byte_shiftLeft_one (b : Byte) : (b <<< 1).toNat = b.toNat * 2 % 256 := by
  rw [BitVec.toNat_shiftLeft, Nat.shiftLeft_eq, pow_one]

end Sys2Proof

namespace Sys2Proof.Machine

/-! The words of the rows (R67). -/

theorem decodesAs_ldImm : decodesAs 0xF000 0x6000 (fun w => .ldImm (fieldX w) (fieldNN w)) :=
  decodesAs_of_row (by decide) (fun _ => rfl) fun _ h => decodeWord_of_family6 (fieldOp_of_and_F000 h)

theorem decodesAs_addImm : decodesAs 0xF000 0x7000 (fun w => .addImm (fieldX w) (fieldNN w)) :=
  decodesAs_of_row (by decide) (fun _ => rfl) fun _ h => decodeWord_of_family7 (fieldOp_of_and_F000 h)

/-- A row of family 8 is decoded by the low nibble of its pattern (R65). -/
theorem decodesAs_of_family8 {pattern : Word} {i : Word → Instr} (hr : ⟨0xF00F, pattern⟩ ∈ opcodeMap)
    (hop : fieldOp pattern = 0x8) (hrow : ∀ w, rowOf (i w) = some ⟨0xF00F, pattern⟩)
    (hdec : ∀ w, fieldN w = fieldN pattern → decodeFamily8 w = i w) : decodesAs 0xF00F pattern i := by
  refine decodesAs_of_row hr hrow fun w h => ?_
  subst h
  rw [decodeWord_of_family8 ((fieldOp_and_F00F w).symm.trans hop)]
  exact hdec w (fieldN_and_F00F w).symm

theorem decodesAs_ldReg : decodesAs 0xF00F 0x8000 (fun w => .ldReg (fieldX w) (fieldY w)) :=
  decodesAs_of_family8 (by decide) rfl (fun _ => rfl) fun _ h => by rw [decodeFamily8, h]; rfl

theorem decodesAs_orReg : decodesAs 0xF00F 0x8001 (fun w => .orReg (fieldX w) (fieldY w)) :=
  decodesAs_of_family8 (by decide) rfl (fun _ => rfl) fun _ h => by rw [decodeFamily8, h]; rfl

theorem decodesAs_andReg : decodesAs 0xF00F 0x8002 (fun w => .andReg (fieldX w) (fieldY w)) :=
  decodesAs_of_family8 (by decide) rfl (fun _ => rfl) fun _ h => by rw [decodeFamily8, h]; rfl

theorem decodesAs_xorReg : decodesAs 0xF00F 0x8003 (fun w => .xorReg (fieldX w) (fieldY w)) :=
  decodesAs_of_family8 (by decide) rfl (fun _ => rfl) fun _ h => by rw [decodeFamily8, h]; rfl

theorem decodesAs_addReg : decodesAs 0xF00F 0x8004 (fun w => .addReg (fieldX w) (fieldY w)) :=
  decodesAs_of_family8 (by decide) rfl (fun _ => rfl) fun _ h => by rw [decodeFamily8, h]; rfl

theorem decodesAs_subReg : decodesAs 0xF00F 0x8005 (fun w => .subReg (fieldX w) (fieldY w)) :=
  decodesAs_of_family8 (by decide) rfl (fun _ => rfl) fun _ h => by rw [decodeFamily8, h]; rfl

theorem decodesAs_shr : decodesAs 0xF00F 0x8006 (fun w => .shr (fieldX w) (fieldY w)) :=
  decodesAs_of_family8 (by decide) rfl (fun _ => rfl) fun _ h => by rw [decodeFamily8, h]; rfl

theorem decodesAs_subn : decodesAs 0xF00F 0x8007 (fun w => .subn (fieldX w) (fieldY w)) :=
  decodesAs_of_family8 (by decide) rfl (fun _ => rfl) fun _ h => by rw [decodeFamily8, h]; rfl

theorem decodesAs_shl : decodesAs 0xF00F 0x800E (fun w => .shl (fieldX w) (fieldY w)) :=
  decodesAs_of_family8 (by decide) rfl (fun _ => rfl) fun _ h => by rw [decodeFamily8, h]; rfl

/-! Each instruction is one register write, with or without a flag (R100 to R110). -/

section
variable (x y : Reg) (nn : Byte) (s : State)

theorem exec_ldImm : exec (.ldImm x nn) s = .next (s.setV x nn) := rfl

theorem exec_addImm : exec (.addImm x nn) s = .next (s.setV x (s.v x + nn)) := rfl

theorem exec_ldReg : exec (.ldReg x y) s = .next (s.setV x (s.v y)) := rfl

theorem exec_orReg : exec (.orReg x y) s = .next (s.setV x (s.v x ||| s.v y)) := rfl

theorem exec_andReg : exec (.andReg x y) s = .next (s.setV x (s.v x &&& s.v y)) := rfl

theorem exec_xorReg : exec (.xorReg x y) s = .next (s.setV x (s.v x ^^^ s.v y)) := rfl

theorem exec_addReg :
    exec (.addReg x y) s = .next (s.setVThenFlag x (s.v x + s.v y) (carryFlag (s.v x) (s.v y))) := rfl

theorem exec_subReg :
    exec (.subReg x y) s = .next (s.setVThenFlag x (s.v x - s.v y) (greaterFlag (s.v x) (s.v y))) := rfl

theorem exec_shr :
    exec (.shr x y) s = .next (s.setVThenFlag x (s.v y >>> 1) (lowBitFlag (s.v y))) := rfl

theorem exec_subn :
    exec (.subn x y) s = .next (s.setVThenFlag x (s.v y - s.v x) (greaterFlag (s.v y) (s.v x))) := rfl

theorem exec_shl :
    exec (.shl x y) s = .next (s.setVThenFlag x (s.v y <<< 1) (lowBitFlag (s.v y))) := rfl

end

theorem toNat_carryFlag (a b : Byte) :
    (carryFlag a b).toNat = if 255 < a.toNat + b.toNat then 1 else 0 := by
  simp only [carryFlag, toNat_flagByte, decide_eq_true_eq]

theorem toNat_greaterFlag (a b : Byte) : (greaterFlag a b).toNat = if b.toNat < a.toNat then 1 else 0 := by
  simp only [greaterFlag, toNat_flagByte, decide_eq_true_eq]

/-! What an execution leaves when its effect is one register write. -/

section
variable {i : Instr} {s : State} {x : Reg} {b flag : Byte} {n f : Nat}

theorem exists_next_of_setV (h : exec i s = .next (s.setV x b)) :
    ∃ t, exec i s = .next t ∧ t.v x = b ∧ (∀ r, r ≠ x → t.v r = s.v r) ∧ t = { s with regs := t.regs } :=
  ⟨_, h, s.v_setV_same x b, fun _ hr => s.v_setV_other b hr, rfl⟩

theorem exists_next_toNat_of_setV (h : exec i s = .next (s.setV x b)) (hb : b.toNat = n) :
    ∃ t, exec i s = .next t ∧ (t.v x).toNat = n ∧
      (∀ r, r ≠ x → t.v r = s.v r) ∧ t = { s with regs := t.regs } := by
  obtain ⟨t, ht, rfl, hframe⟩ := exists_next_of_setV h
  exact ⟨t, ht, hb, hframe⟩

/-- The flag is in `VF` whatever X is, the result in `V[X]` unless X is F (R11). -/
theorem exists_next_toNat_of_setVThenFlag (h : exec i s = .next (s.setVThenFlag x b flag))
    (hflag : flag.toNat = f) (hb : b.toNat = n) :
    ∃ t, exec i s = .next t ∧ (t.v Reg.vf).toNat = f ∧ (x ≠ Reg.vf → (t.v x).toNat = n) ∧
      (∀ r, r ≠ x → r ≠ Reg.vf → t.v r = s.v r) ∧ t = { s with regs := t.regs } := by
  refine ⟨_, h, ?_, fun hx => ?_, fun r => s.v_setVThenFlag_other b flag, s.setVThenFlag_eq x b flag⟩
  · rw [State.v_setVThenFlag_vf, hflag]
  · rw [s.v_setVThenFlag_result b flag hx, hb]

end

/-- Settles O19: both write `V[X]` alone, the second a sum of bytes. -/
theorem immediateLoadAndAdd : Obligations.ImmediateLoadAndAdd := by
  refine ⟨decodesAs_ldImm, decodesAs_addImm, fun s x nn => ⟨?_, ?_⟩⟩
  · exact exists_next_of_setV (exec_ldImm x nn s)
  · exact exists_next_toNat_of_setV (exec_addImm x nn s) (BitVec.toNat_add _ _)

/-- Settles O20: each is one write of `V[X]`, of a value that the bytes' bits give. -/
theorem copyAndLogicWriteOnlyVX : Obligations.CopyAndLogicWriteOnlyVX := by
  refine ⟨decodesAs_ldReg, decodesAs_orReg, decodesAs_andReg, decodesAs_xorReg, fun s x y => ⟨?_, ?_, ?_, ?_⟩⟩
  · exact exists_next_of_setV (exec_ldReg x y s)
  · exact exists_next_toNat_of_setV (exec_orReg x y s) (BitVec.toNat_or _ _)
  · exact exists_next_toNat_of_setV (exec_andReg x y s) (BitVec.toNat_and _ _)
  · exact exists_next_toNat_of_setV (exec_xorReg x y s) (BitVec.toNat_xor _ _)

/-- Settles O21: the sum and its carry, the flag written last. -/
theorem addWritesSumAndCarry : Obligations.AddWritesSumAndCarry := by
  refine ⟨decodesAs_addReg, fun s x y => ?_⟩
  exact exists_next_toNat_of_setVThenFlag (exec_addReg x y s) (toNat_carryFlag _ _) (BitVec.toNat_add _ _)

/-- Settles O22: the two subtractions are one rule with the operands exchanged. -/
theorem subtractWritesDifferenceAndStrictFlag : Obligations.SubtractWritesDifferenceAndStrictFlag := by
  refine ⟨decodesAs_subReg, decodesAs_subn, fun s x y => ⟨?_, ?_⟩⟩
  · exact exists_next_toNat_of_setVThenFlag (exec_subReg x y s) (toNat_greaterFlag _ _) (toNat_byte_sub _ _)
  · exact exists_next_toNat_of_setVThenFlag (exec_subn x y s) (toNat_greaterFlag _ _) (toNat_byte_sub _ _)

/-- Settles O23: the two shifts move the same operand and share the flag, its bit 0. -/
theorem shiftsMoveVYAndFlagItsLowBit : Obligations.ShiftsMoveVYAndFlagItsLowBit := by
  refine ⟨decodesAs_shr, decodesAs_shl, fun s x y => ⟨?_, ?_⟩⟩
  · exact exists_next_toNat_of_setVThenFlag (exec_shr x y s) (toNat_lowBitFlag _) (toNat_byte_ushiftRight_one _)
  · exact exists_next_toNat_of_setVThenFlag (exec_shl x y s) (toNat_lowBitFlag _) (toNat_byte_shiftLeft_one _)

end Sys2Proof.Machine

namespace Sys2Proof

/-! ## Index register and memory: the index load (42_index_memory.md) -/

theorem decodeWord_of_familyA {w : Word} (hop : fieldOp w = 0xA) : decodeWord w = .ldI (fieldNNN w) := by
  rw [decodeWord, hop]
  rfl

end Sys2Proof

namespace Sys2Proof.Machine

theorem exec_ldI (nnn : BitVec 12) (s : State) : exec (.ldI nnn) s = .next { s with index := address nnn } := rfl

theorem decodesAs_ldI : decodesAs 0xF000 0xA000 (fun w => .ldI (fieldNNN w)) :=
  decodesAs_of_row (by decide) (fun _ => rfl) fun _ h => decodeWord_of_familyA (fieldOp_of_and_F000 h)

/-- Settles O26: the words of the row are the index loads, and `I` becomes the address field zero-extended. -/
theorem loadIndexSetsI : Obligations.LoadIndexSetsI := by
  refine ⟨decodesAs_ldI, fun s nnn => ?_⟩
  exact ⟨_, exec_ldI nnn s, toNat_address nnn, rfl⟩

end Sys2Proof.Machine

namespace Sys2Proof

/-! ## Display: clear (43_display.md) -/

/-- The mask of an exact word keeps the whole word (R67). -/
theorem eq_of_and_FFFF {w pattern : Word} (h : w &&& 0xFFFF = pattern) : w = pattern :=
  BitVec.and_allOnes.symm.trans h

end Sys2Proof

namespace Sys2Proof.Machine

/-- The framebuffer with every cell off. -/
def Framebuffer.allOff : Framebuffer := Vector.replicate 32 (Vector.replicate 64 false)

theorem Framebuffer.cell_allOff (y x : Nat) : Framebuffer.allOff.cell y x = false := by
  by_cases h : y < 32 ∧ x < 64
  · rw [Framebuffer.cell_of_lt _ h.1 h.2, Framebuffer.allOff, Vector.getElem_replicate, Vector.getElem_replicate]
  · exact Framebuffer.cell_outside _ h

theorem exec_cls (s : State) : exec .cls s = .next { s with fb := Framebuffer.allOff } := rfl

theorem decodesAs_cls : decodesAs 0xFFFF 0x00E0 (fun _ => .cls) :=
  decodesAs_of_row (by decide) (fun _ => rfl) fun _ h => congrArg decodeWord (eq_of_and_FFFF h)

/-- Settles O34: the one word of the row is the clear, and it replaces the framebuffer by the one with every cell off. -/
theorem clearTurnsEveryCellOff : Obligations.ClearTurnsEveryCellOff := by
  refine ⟨decodesAs_cls, fun s => ?_⟩
  exact ⟨_, exec_cls s, fun y x _ _ => Framebuffer.cell_allOff y x, rfl⟩

end Sys2Proof.Machine

namespace Sys2Proof

/-! ## Keys and timers: timer access (44_keys_timers.md) -/

theorem decodeWord_of_familyF {w : Word} (hop : fieldOp w = 0xF) : decodeWord w = decodeFamilyF w := by
  rw [decodeWord, hop]
  rfl

/-- The mask of families E and F keeps the top nibble (R65). -/
theorem fieldOp_and_F0FF (w : Word) : fieldOp (w &&& 0xF0FF) = fieldOp w := by
  simp only [fieldOp, BitVec.extractLsb'_and]
  exact BitVec.and_allOnes

/-- The mask of families E and F keeps the low byte (R65). -/
theorem fieldNN_and_F0FF (w : Word) : fieldNN (w &&& 0xF0FF) = fieldNN w := by
  simp only [fieldNN, BitVec.extractLsb'_and]
  exact BitVec.and_allOnes

end Sys2Proof

namespace Sys2Proof.Machine

/-- A row of family F is decoded by the low byte of its pattern (R65). -/
theorem decodesAs_of_familyF {pattern : Word} {i : Word → Instr} (hr : ⟨0xF0FF, pattern⟩ ∈ opcodeMap)
    (hop : fieldOp pattern = 0xF) (hrow : ∀ w, rowOf (i w) = some ⟨0xF0FF, pattern⟩)
    (hdec : ∀ w, fieldNN w = fieldNN pattern → decodeFamilyF w = i w) : decodesAs 0xF0FF pattern i := by
  refine decodesAs_of_row hr hrow fun w h => ?_
  subst h
  rw [decodeWord_of_familyF ((fieldOp_and_F0FF w).symm.trans hop)]
  exact hdec w (fieldNN_and_F0FF w).symm

theorem decodesAs_ldVxDt : decodesAs 0xF0FF 0xF007 (fun w => .ldVxDt (fieldX w)) :=
  decodesAs_of_familyF (by decide) rfl (fun _ => rfl) fun _ h => by rw [decodeFamilyF, h]; rfl

theorem decodesAs_ldDtVx : decodesAs 0xF0FF 0xF015 (fun w => .ldDtVx (fieldX w)) :=
  decodesAs_of_familyF (by decide) rfl (fun _ => rfl) fun _ h => by rw [decodeFamilyF, h]; rfl

theorem decodesAs_ldStVx : decodesAs 0xF0FF 0xF018 (fun w => .ldStVx (fieldX w)) :=
  decodesAs_of_familyF (by decide) rfl (fun _ => rfl) fun _ h => by rw [decodeFamilyF, h]; rfl

theorem exec_ldVxDt (x : Reg) (s : State) : exec (.ldVxDt x) s = .next (s.setV x s.dt) := rfl

theorem exec_ldDtVx (x : Reg) (s : State) : exec (.ldDtVx x) s = .next { s with dt := s.v x } := rfl

theorem exec_ldStVx (x : Reg) (s : State) : exec (.ldStVx x) s = .next { s with st := s.v x } := rfl

/-- Settles O39: the read of `DT` is one write of `V[X]`, and each of the other two sets one timer. -/
theorem timerInstructionsMoveTheTimers : Obligations.TimerInstructionsMoveTheTimers := by
  refine ⟨decodesAs_ldVxDt, decodesAs_ldDtVx, decodesAs_ldStVx, fun s x => ⟨?_, ?_, ?_⟩⟩
  · exact exists_next_of_setV (exec_ldVxDt x s)
  · exact exec_ldDtVx x s
  · exact exec_ldStVx x s

end Sys2Proof.Machine

namespace Sys2Proof

/-! ## Encoding: round trip, unrecognised words, fields (30_encoding.md) -/

/-- Settles O2: each family of the decoder answers a well-formed instruction whose word it was given. -/
theorem encodingADecodedWordGivesItBack : Obligations.EncodingADecodedWordGivesItBack :=
  hasWord_decodeWord

/-- Only `nop` stands in no row of the opcode map, and its word is the one decoded (R68). -/
theorem decodeWord_of_no_row {w : Word} (h : ∀ r ∈ opcodeMap, ¬ r.accepts w) : decodeWord w = .nop w := by
  have henc : encode (decodeWord w) = w := (hasWord_decodeWord w).2
  have hrow : rowOf (decodeWord w) = none := by
    cases hr : rowOf (decodeWord w) with
    | none => rfl
    | some r => exact absurd (accepts_of_rowOf_decodeWord hr).2 (h r (accepts_of_rowOf_decodeWord hr).1)
  generalize decodeWord w = i at *
  cases i
  case nop w' => rw [← henc]; rfl
  all_goals cases hrow

theorem unrecognised_of_no_row {w : Word} (h : ∀ r ∈ opcodeMap, ¬ r.accepts w) : Word.unrecognised w := by
  have hwf : (decodeWord w).wellFormed = true := (hasWord_decodeWord w).1
  rw [decodeWord_of_no_row h] at hwf
  exact of_decide_eq_true hwf

/-- The decoder undoes the encoder: the fields of a word of each format are the operands it was made of (R62, R67). -/
theorem decodeWord_encode {i : Instr} (h : i.wellFormed = true) : decodeWord (encode i) = i := by
  cases i
  case nop w => exact decodeWord_of_no_row (not_accepts_of_unrecognised (of_decide_eq_true h))
  case cls | ret => decide
  case jp | call | ldI | jpV0 => simp [encode, decodeWord]
  case seImm | sneImm | ldImm | addImm | rnd => simp [encode, decodeWord]
  case seReg | sneReg | drw => simp [encode, decodeWord]
  case ldReg | orReg | andReg | xorReg | addReg | subReg | shr | subn | shl =>
    simp [encode, decodeWord, decodeFamily8]
  case skp | sknp => simp [encode, decodeWord, decodeFamilyE]
  case ldVxDt | ldVxK | ldDtVx | ldStVx | addI | ldF | ldB | stRegs | ldRegs =>
    simp [encode, decodeWord, decodeFamilyF]

/-- A word is put together from its two bytes (R43). -/
theorem wordOfBytes_extractLsb' (w : Word) : wordOfBytes (w.extractLsb' 8 8) (w.extractLsb' 0 8) = w := by
  apply BitVec.eq_of_toNat_eq
  simp only [toNat_wordOfBytes, BitVec.extractLsb'_toNat, Nat.shiftRight_eq_div_pow]
  omega

/-- Settles O1: the decoder undoes the encoder on words, and the two bytes of a word give the word. -/
theorem decodingAnEncodedInstructionGivesItBack : Obligations.DecodingAnEncodedInstructionGivesItBack := by
  intro i hwf
  refine ⟨decodeWord_encode hwf, fun rest => ?_⟩
  rw [decodeBytes, wordOfBytes_extractLsb', decodeWord_encode hwf]

/-- Settles O4: the fields as quotients and remainders of the word's number. -/
theorem fieldsAreTheNibblesOfTheWord : Obligations.FieldsAreTheNibblesOfTheWord := by
  intro op x y n hop hx hy hn w hw
  rw [toNat_fieldOp, val_fieldX, val_fieldY, toNat_fieldN, toNat_fieldNN, toNat_fieldNNN]
  omega

/-- Settles O6: each of these closed words decodes by evaluation. -/
theorem wordsOfEveryFamilyDecode : Obligations.WordsOfEveryFamilyDecode := by
  unfold Obligations.WordsOfEveryFamilyDecode
  decide

end Sys2Proof

namespace Sys2Proof.Machine

theorem exec_nop (w : Word) (s : State) : exec (.nop w) s = .next s := rfl

/-- Settles O5: the unrecognised words are those of no row, which decode to `nop`, and `nop` keeps the state. -/
theorem unrecognisedWordsAreNoOperations : Obligations.UnrecognisedWordsAreNoOperations := by
  have hnop : ∀ w : Word, Word.unrecognised w → decodeWord w = .nop w := fun _ hw =>
    decodeWord_of_no_row (not_accepts_of_unrecognised hw)
  refine ⟨fun w => ⟨unrecognised_of_no_row, not_accepts_of_unrecognised⟩, hnop, exec_nop, fun s hpc hw => ?_⟩
  rw [cycle_of_le hpc, hnop _ hw, exec_nop]

/-! ## The words of the remaining rows (30_encoding.md R67) -/

theorem decodesAs_ret : decodesAs 0xFFFF 0x00EE (fun _ => .ret) :=
  decodesAs_of_row (by decide) (fun _ => rfl) fun _ h => congrArg decodeWord (eq_of_and_FFFF h)

/-- A row that the top nibble alone selects is decoded by the top nibble of its pattern (R64). -/
theorem decodesAs_of_fieldOp {pattern : Word} {i : Word → Instr} (hr : ⟨0xF000, pattern⟩ ∈ opcodeMap)
    (hrow : ∀ w, rowOf (i w) = some ⟨0xF000, pattern⟩)
    (hdec : ∀ w, fieldOp w = fieldOp pattern → decodeWord w = i w) : decodesAs 0xF000 pattern i :=
  decodesAs_of_row hr hrow fun w h => hdec w (fieldOp_of_and_F000 h)

theorem decodesAs_call : decodesAs 0xF000 0x2000 (fun w => .call (fieldNNN w)) :=
  decodesAs_of_fieldOp (by decide) (fun _ => rfl) fun _ h => by rw [decodeWord, h]; rfl

theorem decodesAs_seReg : decodesAs 0xF000 0x5000 (fun w => .seReg (fieldX w) (fieldY w) (fieldN w)) :=
  decodesAs_of_fieldOp (by decide) (fun _ => rfl) fun _ h => by rw [decodeWord, h]; rfl

theorem decodesAs_sneReg : decodesAs 0xF000 0x9000 (fun w => .sneReg (fieldX w) (fieldY w) (fieldN w)) :=
  decodesAs_of_fieldOp (by decide) (fun _ => rfl) fun _ h => by rw [decodeWord, h]; rfl

theorem decodesAs_jpV0 : decodesAs 0xF000 0xB000 (fun w => .jpV0 (fieldNNN w)) :=
  decodesAs_of_fieldOp (by decide) (fun _ => rfl) fun _ h => by rw [decodeWord, h]; rfl

theorem decodesAs_rnd : decodesAs 0xF000 0xC000 (fun w => .rnd (fieldX w) (fieldNN w)) :=
  decodesAs_of_fieldOp (by decide) (fun _ => rfl) fun _ h => by rw [decodeWord, h]; rfl

theorem decodesAs_drw : decodesAs 0xF000 0xD000 (fun w => .drw (fieldX w) (fieldY w) (fieldN w)) :=
  decodesAs_of_fieldOp (by decide) (fun _ => rfl) fun _ h => by rw [decodeWord, h]; rfl

/-- A row of family E is decoded by the low byte of its pattern (R65). -/
theorem decodesAs_of_familyE {pattern : Word} {i : Word → Instr} (hr : ⟨0xF0FF, pattern⟩ ∈ opcodeMap)
    (hop : fieldOp pattern = 0xE) (hrow : ∀ w, rowOf (i w) = some ⟨0xF0FF, pattern⟩)
    (hdec : ∀ w, fieldNN w = fieldNN pattern → decodeFamilyE w = i w) : decodesAs 0xF0FF pattern i := by
  refine decodesAs_of_row hr hrow fun w h => ?_
  subst h
  rw [decodeWord, (fieldOp_and_F0FF w).symm.trans hop]
  exact hdec w (fieldNN_and_F0FF w).symm

theorem decodesAs_skp : decodesAs 0xF0FF 0xE09E (fun w => .skp (fieldX w)) :=
  decodesAs_of_familyE (by decide) rfl (fun _ => rfl) fun _ h => by rw [decodeFamilyE, h]; rfl

theorem decodesAs_sknp : decodesAs 0xF0FF 0xE0A1 (fun w => .sknp (fieldX w)) :=
  decodesAs_of_familyE (by decide) rfl (fun _ => rfl) fun _ h => by rw [decodeFamilyE, h]; rfl

theorem decodesAs_ldVxK : decodesAs 0xF0FF 0xF00A (fun w => .ldVxK (fieldX w)) :=
  decodesAs_of_familyF (by decide) rfl (fun _ => rfl) fun _ h => by rw [decodeFamilyF, h]; rfl

theorem decodesAs_addI : decodesAs 0xF0FF 0xF01E (fun w => .addI (fieldX w)) :=
  decodesAs_of_familyF (by decide) rfl (fun _ => rfl) fun _ h => by rw [decodeFamilyF, h]; rfl

theorem decodesAs_ldF : decodesAs 0xF0FF 0xF029 (fun w => .ldF (fieldX w)) :=
  decodesAs_of_familyF (by decide) rfl (fun _ => rfl) fun _ h => by rw [decodeFamilyF, h]; rfl

theorem decodesAs_ldB : decodesAs 0xF0FF 0xF033 (fun w => .ldB (fieldX w)) :=
  decodesAs_of_familyF (by decide) rfl (fun _ => rfl) fun _ h => by rw [decodeFamilyF, h]; rfl

theorem decodesAs_stRegs : decodesAs 0xF0FF 0xF055 (fun w => .stRegs (fieldX w)) :=
  decodesAs_of_familyF (by decide) rfl (fun _ => rfl) fun _ h => by rw [decodeFamilyF, h]; rfl

theorem decodesAs_ldRegs : decodesAs 0xF0FF 0xF065 (fun w => .ldRegs (fieldX w)) :=
  decodesAs_of_familyF (by decide) rfl (fun _ => rfl) fun _ h => by rw [decodeFamilyF, h]; rfl

end Sys2Proof.Machine

namespace Sys2Proof.Machine

/-! ## The cycle and the step: faults as tabled, and what a step can answer (40_control_flow.md, 60_exceptions.md) -/

/-- The outcome `r` of executing from `s` is the fault `f`, or with no fault a next state with the latches of `s`. -/
def FaultsAs (r : Result) (s : State) : Option (FaultCause × Word) → Prop
  | some (cause, info) => r = .next (s.faulted cause info)
  | none => ∃ t, r = .next t ∧ t.fault = s.fault ∧ t.faultInfo = s.faultInfo

section
variable {s t : State} {r : Result}

theorem faultsAs_none (h : r = .next t) (hf : t.fault = s.fault) (hi : t.faultInfo = s.faultInfo) :
    FaultsAs r s none := ⟨t, h, hf, hi⟩

theorem faultsAs_ite {p : Prop} [Decidable p] {cause : FaultCause} {info : Word}
    (h : p → FaultsAs r s (some (cause, info))) (h' : ¬ p → FaultsAs r s none) :
    FaultsAs r s (if p then some (cause, info) else none) := by
  split
  · exact h ‹_›
  · exact h' ‹_›

/-- A checked data access faults as tabled when the table's condition is that it reaches past 0xFFF (R47, R126). -/
theorem faultsAs_checked {p : Prop} [Decidable p] {k : Nat} {go : State}
    (hp : p ↔ outOfRange (s.ea 0) k) (hf : go.fault = s.fault) (hi : go.faultInfo = s.faultInfo) :
    FaultsAs (checked (s.ea 0) k s go) s (if p then some (rangeFault s.index) else none) := by
  rw [show rangeFault s.index = (.memoryOutOfRange, (rangeFault s.index).2) from rfl]
  refine faultsAs_ite (fun h => ?_) (fun h => ?_)
  · rw [← rangeInfo_toNat]
    exact checked_of_outOfRange go (hp.1 h)
  · exact faultsAs_none (checked_of_inRange go (mt hp.2 h)) hf hi

end

theorem exec_ret_of_sp_eq_zero {s : State} (h : s.sp = 0) :
    exec .ret s = .next (s.faulted .stackUnderflow (s.pc - 2)) := if_pos h

theorem exec_ret_of_sp_ne_zero {s : State} (h : s.sp ≠ 0) :
    exec .ret s = .next { s with sp := s.sp - 1, pc := s.stackAt (s.sp - 1) } := if_neg h

theorem exec_call_of_full {s : State} (nnn : BitVec 12) (h : s.sp = s.params.stackDepth) :
    exec (.call nnn) s = .next (s.faulted .stackOverflow (s.pc - 2)) := if_pos h

theorem exec_call_of_not_full {s : State} (nnn : BitVec 12) (h : s.sp ≠ s.params.stackDepth) :
    exec (.call nnn) s = .next { s.push s.pc with pc := address nnn } := if_neg h

theorem exec_ldVxK_of_anyKey {s : State} (x : Reg) (h : s.anyKey = true) :
    exec (.ldVxK x) s = .next (s.setV x (BitVec.ofNat 8 s.lastKey.val)) := if_pos h

theorem exec_ldVxK_of_not_anyKey {s : State} (x : Reg) (h : ¬ s.anyKey = true) :
    exec (.ldVxK x) s = .next { s with pc := s.pc - 2 } := if_neg h

/-! The three instructions that branch on the state without an access, said once more as inversions. -/

theorem exec_ret_cases {s t : State} (h : exec .ret s = .next t) :
    (s.sp = 0 ∧ t = s.faulted .stackUnderflow (s.pc - 2)) ∨
    (s.sp ≠ 0 ∧ t = { s with sp := s.sp - 1, pc := s.stackAt (s.sp - 1) }) := by
  by_cases hsp : s.sp = 0
  · rw [exec_ret_of_sp_eq_zero hsp] at h
    cases h
    exact .inl ⟨hsp, rfl⟩
  · rw [exec_ret_of_sp_ne_zero hsp] at h
    cases h
    exact .inr ⟨hsp, rfl⟩

theorem exec_call_cases {nnn : BitVec 12} {s t : State} (h : exec (.call nnn) s = .next t) :
    (s.sp = s.params.stackDepth ∧ t = s.faulted .stackOverflow (s.pc - 2)) ∨
    (s.sp ≠ s.params.stackDepth ∧ t = { s.push s.pc with pc := address nnn }) := by
  by_cases hsp : s.sp = s.params.stackDepth
  · rw [exec_call_of_full nnn hsp] at h
    cases h
    exact .inl ⟨hsp, rfl⟩
  · rw [exec_call_of_not_full nnn hsp] at h
    cases h
    exact .inr ⟨hsp, rfl⟩

theorem exec_ldVxK_cases {x : Reg} {s t : State} (h : exec (.ldVxK x) s = .next t) :
    (s.anyKey = true ∧ t = s.setV x (BitVec.ofNat 8 s.lastKey.val)) ∨
    (¬ s.anyKey = true ∧ t = { s with pc := s.pc - 2 }) := by
  by_cases hk : s.anyKey = true
  · rw [exec_ldVxK_of_anyKey x hk] at h
    cases h
    exact .inl ⟨hk, rfl⟩
  · rw [exec_ldVxK_of_not_anyKey x hk] at h
    cases h
    exact .inr ⟨hk, rfl⟩

/-- Every instruction faults as tabled (R170, R126). -/
theorem exec_faultsAs (i : Instr) (s : State) : FaultsAs (exec i s) s (faultOf i s) := by
  cases i
  case ret =>
    exact faultsAs_ite exec_ret_of_sp_eq_zero fun h => faultsAs_none (exec_ret_of_sp_ne_zero h) rfl rfl
  case call nnn =>
    exact faultsAs_ite (exec_call_of_full nnn) fun h =>
      faultsAs_none (exec_call_of_not_full nnn h) rfl rfl
  case drw x y n => exact faultsAs_checked Iff.rfl rfl rfl
  case ldB x => exact faultsAs_checked (k := 3) (by rw [outOfRange_iff, State.ea]; omega) rfl rfl
  case stRegs x => exact faultsAs_checked (k := x.val + 1) (by rw [outOfRange_iff, State.ea]; omega) rfl rfl
  case ldRegs x => exact faultsAs_checked (k := x.val + 1) (by rw [outOfRange_iff, State.ea]; omega) rfl rfl
  case ldVxK x =>
    by_cases h : s.anyKey = true
    · exact faultsAs_none (exec_ldVxK_of_anyKey x h) rfl rfl
    · exact faultsAs_none (exec_ldVxK_of_not_anyKey x h) rfl rfl
  case seImm | sneImm | seReg | sneReg | skp | sknp =>
    exact faultsAs_none rfl (s.skipIf_fault _) (s.skipIf_faultInfo _)
  all_goals exact faultsAs_none rfl rfl rfl

/-- Settles O11: every instruction is compared with its line of the table. -/
theorem instructionsFaultExactlyAsTabled : Obligations.InstructionsFaultExactlyAsTabled := exec_faultsAs

/-- The advance of `pc` and the way back of a fault cancel (R80, R171). -/
theorem State.faulted_of_advanced (s : State) (cause : FaultCause) (info : Word) :
    State.faulted { s with pc := s.pc + 2 } cause info = { s with fault := cause, faultInfo := info } := by
  simp [State.faulted]

/-- Settles O10: the fetch fault sets the latches alone, and a raise puts `pc` back. -/
theorem faultsArePrecise : Obligations.FaultsArePrecise := by
  intro s t hs h ht
  rcases cycle_cases h with ⟨-, h⟩ | ⟨-, h⟩
  · cases h
    rfl
  · rcases exec_raises_or_keeps_latches h.symm with ⟨hf, -⟩ | ⟨cause, info, -, rfl⟩
    · exact absurd (hf.trans hs) ht
    · rw [State.faulted_of_advanced]

theorem cycle_of_ge {s : State} (h : 0xFFF ≤ s.pc.toNat) :
    cycle s = .next { s with fault := .memoryOutOfRange, faultInfo := (rangeFault s.pc).2 } := by
  rcases cycle_cases (rfl : cycle s = cycle s) with ⟨-, h'⟩ | ⟨h', -⟩
  · rw [h', rangeInfo_toNat]
  · omega

/-- Settles O9: the fetch check fails there, and the first address above 0xFFF is 0x1000 or `pc` itself. -/
theorem fetchPastMemoryFaults : Obligations.FetchPastMemoryFaults := by
  intro s h
  have hinfo : (rangeFault s.pc).2 = if s.pc.toNat = 0xFFF then 0x1000 else s.pc :=
    ite_congr (propext (by omega)) (fun _ => rfl) fun _ => rfl
  rw [cycle_of_ge h, hinfo]

/-! A running machine's step with nothing, or a cycle, scheduled is a cycle. -/

theorem step_of_unscheduled_running {s : State} (h : s.schedule = []) (hr : s.running = true) : step s = cycle s := by
  obtain ⟨hf, hp⟩ := running_iff.1 hr
  rw [step_unscheduled h, coreTurn, if_pos hf, if_neg (by simp [hp])]

theorem step_of_cycle_running {s : State} {rest : List Move} (h : s.schedule = .cycle :: rest)
    (hr : s.running = true) : step s = cycle { s with schedule := rest } := by
  rw [step_scheduled h]
  exact if_pos hr

/-- Settles O8: the two bytes decode to one instruction, and the cycle executes it. -/
theorem stepRunsTheDecodedInstruction : Obligations.StepRunsTheDecodedInstruction := by
  intro s i hf hp hpc hdec
  have hr : s.running = true := running_iff.2 ⟨hf, hp⟩
  have hi : decodeWord (s.wordAt s.pc.toNat) = i := by
    rw [decodeBytes] at hdec
    cases hdec
    rfl
  subst hi
  refine ⟨fun h => ?_, fun rest h => ?_⟩
  · rw [step_of_unscheduled_running h hr, cycle_of_le hpc]
  · rw [step_of_cycle_running h hr, cycle_of_le (s := { s with schedule := rest }) hpc]
    rfl

/-! What an advance does (R180), and that every move but a negative advance answers a next state. -/

/-- The state with the residuals of an advance by `e` in the accumulators (R180). -/
def State.withResiduals (s : State) (e : ℚ) : State :=
  { s with tickAcc := s.tickTotal e - wholePeriods (s.tickTotal e),
           cycleAcc := s.cycleTotal e - wholePeriods (s.cycleTotal e) }

theorem advance_of_running {s : State} {e : ℚ} (hr : s.running = true) (he : 0 ≤ e) :
    advance e s =
      cycles (wholePeriods (s.cycleTotal e)) (ticks (wholePeriods (s.tickTotal e)) (s.withResiduals e)) := by
  rw [advance, if_neg (not_lt.2 he), if_pos hr]
  rfl

theorem advance_of_not_running {s : State} {e : ℚ} (hr : s.running = false) (he : 0 ≤ e) :
    advance e s = .next s := by
  rw [advance, if_neg (not_lt.2 he), if_neg (by simp [hr])]

theorem advance_of_neg {s : State} {e : ℚ} (he : e < 0) : advance e s = .refused .negativeElapsed := if_pos he

theorem advance_next {e : ℚ} (he : 0 ≤ e) (s : State) : ∃ t, advance e s = .next t := by
  cases hr : s.running
  · exact ⟨s, advance_of_not_running hr he⟩
  · rw [advance_of_running hr he]
    exact cycles_next _ _

/-- A move answers a next state unless it is an advance by a negative time. -/
theorem applyMove_next {m : Move} (h : ∀ e, m = .advance e → 0 ≤ e) (s : State) : ∃ t, applyMove m s = .next t := by
  cases m
  case cycle =>
    simp only [applyMove]
    split
    · exact cycle_next s
    · exact ⟨s, rfl⟩
  case advance e => exact advance_next (h e rfl) s
  all_goals exact ⟨_, rfl⟩

/-- Settles O46: with nothing scheduled only a halted machine stops, and of the moves only a negative advance is
refused. -/
theorem stepsStopOnlyWhenHaltedOrNegative : Obligations.StepsStopOnlyWhenHaltedOrNegative := by
  intro s
  cases hsch : s.schedule with
  | nil =>
    rw [step_unscheduled hsch]
    rcases coreTurn_cases (rfl : coreTurn s = coreTurn s) with ⟨hf, h⟩ | ⟨-, -, h⟩ | ⟨-, -, h⟩
    · exact .inr (.inl ⟨rfl, hf, h⟩)
    · exact .inl ⟨s, h⟩
    · exact .inl (h ▸ cycle_next s)
  | cons m rest =>
    rw [step_scheduled hsch]
    by_cases hm : ∀ e, m = .advance e → 0 ≤ e
    · exact .inl (applyMove_next hm _)
    · push Not at hm
      obtain ⟨e, rfl, he⟩ := hm
      exact .inr (.inr ⟨e, rest, he, rfl, advance_of_neg he⟩)

/-! An ended run (R203). -/

theorem cycles_of_cycle_eq {s : State} (h : cycle s = .next s) (n : Nat) : cycles n s = .next s := by
  induction n with
  | zero => rfl
  | succ n ih =>
    rw [cycles, h]
    split
    · exact ih
    · rfl

/-- The jump to itself: its word is the jump with `pc` as its address. -/
theorem encodeNNN_jump_to_itself {pc : Word} (h : pc.toNat ≤ 0xFFE) :
    encodeNNN 0x1 (pc.setWidth 12) = 0x1000 ||| pc := by
  apply BitVec.eq_of_toNat_eq
  have hor : 2 ^ 12 * 1 + pc.toNat = 2 ^ 12 * 1 ||| pc.toNat := Nat.two_pow_add_eq_or_of_lt (by omega) 1
  rw [toNat_encodeNNN, BitVec.toNat_or, BitVec.toNat_setWidth]
  simp at hor ⊢
  omega

/-- Settles O59: the word at `pc` jumps to `pc`, so a cycle gives the state back. -/
theorem endedRunStaysPut : Obligations.EndedRunStaysPut := by
  rintro s n ⟨-, hpc, hword⟩
  apply cycles_of_cycle_eq
  have haddr : address (s.pc.setWidth 12) = s.pc := by
    apply BitVec.eq_of_toNat_eq
    rw [toNat_address, BitVec.toNat_setWidth]
    omega
  rw [cycle_of_le hpc, hword, ← encodeNNN_jump_to_itself hpc]
  change exec (decodeWord (encode (.jp _))) _ = _
  rw [decodeWord_encode rfl, exec_jp, haddr]

end Sys2Proof.Machine

namespace Sys2Proof.Machine

open Sys2Proof.Config

/-! ## Control flow: return, call, offset jump and register skips (40_control_flow.md) -/

/-- Settles O12: the two branches of the return, split on the empty stack. -/
theorem returnPopsTheStack : Obligations.ReturnPopsTheStack := by
  refine ⟨decodesAs_ret, fun s => ⟨?_, ?_⟩⟩
  · exact exec_ret_of_sp_ne_zero
  · exact exec_ret_of_sp_eq_zero

/-- Settles O14: below the bound the advanced `pc` becomes the top entry, at the bound the call faults. -/
theorem callPushesTheReturnAddress : Obligations.CallPushesTheReturnAddress := by
  refine ⟨decodesAs_call, fun s nnn hlen => ⟨fun hsp => ?_, exec_call_of_full nnn⟩⟩
  refine ⟨_, exec_call_of_not_full nnn (by omega), rfl, ?_, ?_, ?_, toNat_address nnn, rfl⟩
  · exact s.stackAt_push_top s.pc (by omega)
  · exact fun j => s.stackAt_push_other s.pc
  · exact List.length_set

/-- Settles O15: the return pops the entry that the call pushed, and the entries below it are as they were. -/
theorem callThenReturnComesBack : Obligations.CallThenReturnComesBack := by
  intro s nnn pc' hlen hsp
  refine ⟨_, _, exec_call_of_not_full nnn (by omega), exec_ret_of_sp_ne_zero (Nat.succ_ne_zero s.sp), ?_, ?_⟩
  · have htop : (s.push s.pc).stackAt s.sp = s.pc := s.stackAt_push_top s.pc (by omega)
    exact congrArg (fun w => { s with stack := (s.push s.pc).stack, pc := w }) htop
  · exact fun j hj => s.stackAt_push_other s.pc (by omega)

theorem exec_jpV0 (nnn : BitVec 12) (s : State) :
    exec (.jpV0 nnn) s = .next { s with pc := address nnn + s.vWord 0 } := rfl

/-- The sum of an address and a byte does not wrap at 65536 (R88). -/
theorem toNat_address_add_vWord (s : State) (nnn : BitVec 12) (x : Reg) :
    (address nnn + s.vWord x).toNat = nnn.toNat + (s.v x).toNat := by
  rw [BitVec.toNat_add, toNat_address, State.toNat_vWord]
  omega

/-- Settles O16: the target is the sum, which needs no more than 16 bits. -/
theorem jumpWithOffsetAddsV0 : Obligations.JumpWithOffsetAddsV0 := by
  refine ⟨decodesAs_jpV0, fun s nnn => ?_⟩
  exact ⟨_, exec_jpV0 nnn s, toNat_address_add_vWord s nnn 0, rfl⟩

theorem exec_seReg (x y : Reg) (n : BitVec 4) (s : State) :
    exec (.seReg x y n) s = .next (s.skipIf (s.v x == s.v y)) := rfl

theorem exec_sneReg (x y : Reg) (n : BitVec 4) (s : State) :
    exec (.sneReg x y n) s = .next (s.skipIf (s.v x != s.v y)) := rfl

/-- Settles O18: the two skips split on whether the registers agree, and do not look at the low nibble. -/
theorem registerSkips : Obligations.RegisterSkips := by
  refine ⟨decodesAs_seReg, decodesAs_sneReg, fun s x y n => ⟨?_, ?_⟩⟩
  · rw [exec_seReg, State.skipIf_beq]
  · rw [exec_sneReg, State.skipIf_bne]

/-! ## Arithmetic and logic: the random byte (41_alu.md) -/

theorem exec_rnd (x : Reg) (nn : Byte) (s : State) :
    exec (.rnd x nn) s = .next (s.afterDraw.setV x (s.rnd8 &&& nn)) := rfl

/-- Settles O24: the drawn byte is masked, so a 0 bit of the mask is a 0 bit of the result. -/
theorem randomByteIsMasked : Obligations.RandomByteIsMasked := by
  refine ⟨decodesAs_rnd, fun s x nn => ?_⟩
  have hv : (s.afterDraw.setV x (s.rnd8 &&& nn)).v x = s.rnd8 &&& nn := s.afterDraw.v_setV_same x _
  refine ⟨_, exec_rnd x nn s, hv, fun i _ hi => ?_, rfl, fun r hr => s.afterDraw.v_setV_other _ hr, rfl⟩
  rw [hv, BitVec.getLsbD_and, hi, Bool.and_false]

/-! ## Index register (42_index_memory.md) -/

theorem exec_addI (x : Reg) (s : State) : exec (.addI x) s = .next { s with index := s.index + s.vWord x } := rfl

theorem exec_ldF (x : Reg) (s : State) : exec (.ldF x) s = .next { s with index := s.glyphAddress x } := rfl

/-- Settles O27: the sum of two 16-bit numbers, the second a byte's. -/
theorem addIndexWrapsWithoutFlag : Obligations.AddIndexWrapsWithoutFlag := by
  refine ⟨decodesAs_addI, fun s x => ⟨_, exec_addI x s, ?_, rfl⟩⟩
  rw [BitVec.toNat_add, State.toNat_vWord]

/-- The glyph's address fits in 16 bits, since the font lies below 0x200 (R5, R122). -/
theorem State.toNat_glyphAddress (s : State) (x : Reg) (h : s.params.valid) :
    (s.glyphAddress x).toNat = s.params.fontBase + 5 * ((s.v x).toNat % 16) := by
  have hdigit : (s.v x &&& 0x0F).toNat = (s.v x).toNat % 16 := by
    rw [BitVec.toNat_and]
    exact Nat.and_two_pow_sub_one_eq_mod (s.v x).toNat 4
  have hbase : s.params.fontBase ≤ 0x1B0 := h.1
  rw [State.glyphAddress, BitVec.toNat_ofNat, hdigit, glyphBytes]
  omega

/-- Settles O28: the digit is the low nibble, and the address needs no more than 16 bits. -/
theorem glyphAddressFromLowNibble : Obligations.GlyphAddressFromLowNibble := by
  refine ⟨decodesAs_ldF, fun s x hvalid => ?_⟩
  exact ⟨_, exec_ldF x s, s.toNat_glyphAddress x hvalid, rfl⟩

/-! ## Stores and loads (42_index_memory.md) -/

/-- A checked data access within memory goes on (R47, R126). -/
theorem checked_ea_of_le {s : State} {k : Nat} (go : State) (h : s.index.toNat + k ≤ 0x1000) :
    checked (s.ea 0) k s go = .next go :=
  checked_of_inRange go (by rw [outOfRange_iff, State.ea]; omega)

/-- A checked data access that reaches past 0xFFF is a raise with the first address past it (R47, R170). -/
theorem checked_ea_of_gt {s : State} {k : Nat} (go : State) (hk : 1 ≤ k) (h : 0x1000 < s.index.toNat + k) :
    checked (s.ea 0) k s go = .next (s.faulted .memoryOutOfRange (rangeFault s.index).2) := by
  rw [← rangeInfo_toNat]
  exact checked_of_outOfRange go (by rw [outOfRange_iff, State.ea]; omega)

theorem exec_ldB (x : Reg) (s : State) :
    exec (.ldB x) s = checked (s.ea 0) 3 s (s.storeBytes (s.ea 0) (decimalDigits (s.v x))) := rfl

theorem exec_stRegs (x : Reg) (s : State) :
    exec (.stRegs x) s = checked (s.ea 0) (x.val + 1) s (s.storeBytes (s.ea 0) (s.vUpTo x)) := rfl

theorem exec_ldRegs (x : Reg) (s : State) :
    exec (.ldRegs x) s = checked (s.ea 0) (x.val + 1) s
      { s with regs := loadRegsFrom s.regs 0 (s.bytesAt (s.ea 0) (x.val + 1)) } := rfl

/-- A byte stored at `I + j` reads back there, the store being within memory. -/
theorem State.byteAt_storeBytes_ea {s : State} (hwf : Memory.wf s.params s.mem) {bs : List Byte}
    (hin : s.index.toNat + bs.length ≤ 0x1000) (j : Nat) (hj : j < bs.length) :
    (s.storeBytes (s.ea 0) bs).byteAt (s.ea j) = bs[j] :=
  s.byteAt_storeBytes_inside hwf (s.ea 0) bs hin j hj

/-- Settles O29: the three digits read back where they were stored, and no other byte changed. -/
theorem storeDecimalDigits : Obligations.StoreDecimalDigits := by
  refine ⟨decodesAs_ldB, fun s x hwf => ⟨fun hin => ?_, fun hout => ?_⟩⟩
  · have hlen : (decimalDigits (s.v x)).length = 3 := length_decimalDigits (s.v x)
    have hread := State.byteAt_storeBytes_ea hwf (bs := decimalDigits (s.v x)) (by omega)
    refine ⟨_, (exec_ldB x s).trans (checked_ea_of_le _ (by omega)), ?_, ?_, ?_, fun a ha => ?_, rfl⟩
    · rw [hread 0 (by omega)]
      exact Nat.mod_eq_of_lt (by omega)
    · rw [hread 1 (by omega)]
      exact Nat.mod_eq_of_lt (by omega)
    · rw [hread 2 (by omega)]
      exact Nat.mod_eq_of_lt (by omega)
    · exact s.byteAt_storeBytes_outside _ (by simp only [State.ea] at *; omega)
  · exact (exec_ldB x s).trans (checked_ea_of_gt _ (by omega) (by omega))

/-- A block store within memory: the registers up to `V[X]` at `I` and after, and no other byte (R124). -/
theorem exec_stRegs_of_le {s : State} {x : Reg} (hwf : Memory.wf s.params s.mem)
    (hin : s.index.toNat + x.val ≤ 0xFFF) :
    ∃ t, exec (.stRegs x) s = .next t ∧ (∀ r : Reg, r ≤ x → t.byteAt (s.ea r.val) = s.v r) ∧
      (∀ a, a < s.ea 0 ∨ s.ea x.val < a → t.byteAt a = s.byteAt a) ∧ t = { s with mem := t.mem } := by
  have hlen : (s.vUpTo x).length = x.val + 1 := s.length_vUpTo x
  refine ⟨_, (exec_stRegs x s).trans (checked_ea_of_le _ (by omega)), fun r hr => ?_, fun a ha => ?_, rfl⟩
  · have hrx : r.val < (s.vUpTo x).length := by rw [hlen]; exact Nat.lt_succ_of_le hr
    rw [State.byteAt_storeBytes_ea hwf (by omega) r.val hrx, s.getElem_vUpTo x r.val hrx r.isLt]
  · exact s.byteAt_storeBytes_outside _ (by simp only [State.ea] at *; omega)

/-- Settles O30: within memory the block store, past it the range fault. -/
theorem storeRegistersBlock : Obligations.StoreRegistersBlock := by
  refine ⟨decodesAs_stRegs, fun s x hwf => ⟨exec_stRegs_of_le hwf, fun hout => ?_⟩⟩
  exact (exec_stRegs x s).trans (checked_ea_of_gt _ (by omega) (by omega))

/-- A loaded register: the byte at its place in the block, and above `V[X]` as before (R125). -/
theorem State.v_loadBlock (s : State) (x r : Reg) :
    State.v { s with regs := loadRegsFrom s.regs 0 (s.bytesAt (s.ea 0) (x.val + 1)) } r =
      if r ≤ x then s.byteAt (s.ea r.val) else s.v r := by
  rw [State.v_eq_getElem, getElem_loadRegsFrom _ _ _ _ r.isLt]
  have hlen : (s.bytesAt (s.ea 0) (x.val + 1)).length = x.val + 1 := s.length_bytesAt _ _
  by_cases hr : r ≤ x
  · have hrx : r.val - 0 < (s.bytesAt (s.ea 0) (x.val + 1)).length := by rw [hlen]; exact Nat.lt_succ_of_le hr
    rw [dif_pos ⟨Nat.zero_le _, hrx⟩, if_pos hr, State.getElem_bytesAt]
    rfl
  · have hrx : ¬ r.val - 0 < (s.bytesAt (s.ea 0) (x.val + 1)).length := by
      rw [hlen]
      exact fun h => hr (Nat.le_of_lt_succ h)
    rw [dif_neg fun h => hrx h.2, if_neg hr, State.v_eq_getElem]

/-- Settles O31: within memory each register of the block has its byte, past it the range fault. -/
theorem loadRegistersBlock : Obligations.LoadRegistersBlock := by
  refine ⟨decodesAs_ldRegs, fun s x => ⟨fun hin => ?_, fun hout => ?_⟩⟩
  · refine ⟨_, (exec_ldRegs x s).trans (checked_ea_of_le _ (by omega)), fun r hr => ?_, fun r hr => ?_,
      fun a => s.byteAt_congr rfl rfl a, rfl⟩
    · rw [State.v_loadBlock, if_pos hr]
    · rw [State.v_loadBlock, if_neg (not_le.2 hr)]
  · exact (exec_ldRegs x s).trans (checked_ea_of_gt _ (by omega) (by omega))

/-- Settles O32: the two bytes at `pc` are `V0` and `V1` after the store, and the cycle executes their word. -/
theorem storedCodeIsFetchedNext : Obligations.StoredCodeIsFetchedNext := by
  intro s x hwf hx hI hin
  obtain ⟨t, ht, hread, -, hframe⟩ := exec_stRegs_of_le hwf hin
  refine ⟨t, ht, fun w hw => ?_⟩
  have hpc : t.pc = s.pc := by rw [hframe]
  have hword : t.wordAt t.pc.toNat = w := by
    apply BitVec.eq_of_toNat_eq
    have h0 : t.byteAt s.index.toNat = s.v 0 := hread 0 (Fin.zero_le x)
    have h1 : t.byteAt (s.index.toNat + 1) = s.v 1 := hread 1 (Fin.le_def.2 hx)
    rw [toNat_wordAt, hpc, ← hI, h0, h1, hw]
  rw [cycle_of_le (by rw [hpc, ← hI]; omega), hword, hpc]

/-! ## Memory: the canonical form determines the list (20_memory.md, log 5) -/

section
variable {p : Params} {m m' : Memory} {a a' : Nat} {b b' : Byte}

theorem Memory.lt_of_mem_tail (h : Memory.wf p ((a, b) :: m)) : ∀ c ∈ m, a < c.1 := (List.pairwise_cons.1 h.1).1

theorem Memory.read_cons_same : Memory.read p ((a, b) :: m) a = b := if_pos rfl

theorem Memory.read_cons_other (h : a' ≠ a) : Memory.read p ((a, b) :: m) a' = Memory.read p m a' := if_neg h.symm

/-- A canonical memory's first entry is not what its address reads as unlisted, so a memory that reads alike lists an
address no higher. -/
theorem Memory.exists_le_of_read_eq (h : Memory.wf p ((a, b) :: m))
    (hread : ∀ x, Memory.read p ((a, b) :: m) x = Memory.read p m' x) : ∃ c ∈ m', c.1 ≤ a := by
  by_contra! hbelow
  have hb : b = Memory.unlisted p a :=
    Memory.read_cons_same.symm.trans ((hread a).trans (Memory.read_of_below hbelow))
  exact (h.2 (a, b) List.mem_cons_self).2 hb

/-- Of two canonical memories that read alike the second begins no higher than the first. -/
theorem Memory.head_le_of_read_eq (h : Memory.wf p ((a, b) :: m)) (h' : Memory.wf p ((a', b') :: m'))
    (hread : ∀ x, Memory.read p ((a, b) :: m) x = Memory.read p ((a', b') :: m') x) : a' ≤ a := by
  obtain ⟨c, hc, hca⟩ := Memory.exists_le_of_read_eq h hread
  rcases List.mem_cons.1 hc with rfl | hc
  · exact hca
  · exact (Memory.lt_of_mem_tail h' c hc).le.trans hca

end

/-- Settles O33: by induction on the list, two canonical memories that read alike begin with the same entry. -/
theorem memoriesThatReadAlikeAreEqual : Obligations.MemoriesThatReadAlikeAreEqual := by
  intro p m m' h h' hread
  induction m generalizing m' with
  | nil =>
    cases m' with
    | nil => rfl
    | cons c rest =>
      obtain ⟨d, hd, -⟩ := Memory.exists_le_of_read_eq h' fun x => (hread x).symm
      cases hd
  | cons c rest ih =>
    obtain ⟨a, b⟩ := c
    cases m' with
    | nil =>
      obtain ⟨d, hd, -⟩ := Memory.exists_le_of_read_eq h hread
      cases hd
    | cons c' rest' =>
      obtain ⟨a', b'⟩ := c'
      obtain rfl : a = a' :=
        le_antisymm (Memory.head_le_of_read_eq h' h fun x => (hread x).symm) (Memory.head_le_of_read_eq h h' hread)
      obtain rfl : b = b' := by simpa only [Memory.read_cons_same] using hread a
      have htail : ∀ x, Memory.read p rest x = Memory.read p rest' x := by
        intro x
        by_cases hx : x = a
        · subst hx
          rw [Memory.read_of_below (Memory.lt_of_mem_tail h), Memory.read_of_below (Memory.lt_of_mem_tail h')]
        · simpa only [Memory.read_cons_other hx] using hread x
      rw [ih rest' (Memory.wf_tail h) (Memory.wf_tail h') htail]

end Sys2Proof.Machine

namespace Sys2Proof.Machine

/-! ## Display: the sprite (43_display.md) -/

theorem exec_drw (x y : Reg) (n : BitVec 4) (s : State) :
    exec (.drw x y n) s = checked (s.ea 0) n.toNat s
      ({ s with fb := (s.drawSprite x y n).1 }.setV Reg.vf (flagByte (s.drawSprite x y n).2)) := rfl

theorem exec_drw_of_inRange {s : State} (x y : Reg) {n : BitVec 4}
    (h : n = 0 ∨ s.index.toNat + n.toNat - 1 ≤ 0xFFF) :
    exec (.drw x y n) s =
      .next ({ s with fb := (s.drawSprite x y n).1 }.setV Reg.vf (flagByte (s.drawSprite x y n).2)) := by
  refine (exec_drw x y n s).trans (checked_of_inRange _ ?_)
  rw [outOfRange_iff, State.ea]
  rcases h with rfl | h
  · simp
  · omega

/-- The hits of the drawn bytes are the sprite's bits: bit `j` of a row stands in its column `7 - j` (R142). -/
theorem State.spriteHits_iff (s : State) (x y : Reg) (n : BitVec 4) (row column : Nat) :
    spriteHits ((s.v x).toNat % 64) ((s.v y).toNat % 32) (s.bytesAt (s.ea 0) n.toNat) row column ↔
      s.spriteBit x y n row column := by
  constructor
  · rintro ⟨r, hr, hrow, j, hj, hcolumn, hbit⟩
    rw [State.getElem_bytesAt] at hbit
    rw [State.length_bytesAt] at hr
    refine ⟨r, hr, 7 - j, by omega, hrow, hcolumn, ?_⟩
    rwa [Nat.sub_sub_self (by omega)]
  · rintro ⟨r, hr, c, hc, hrow, hcolumn, hbit⟩
    refine ⟨r, by rwa [State.length_bytesAt], hrow, 7 - c, by omega, ?_, ?_⟩
    · rwa [Nat.sub_sub_self (by omega)]
    · rwa [State.getElem_bytesAt]

/-- A drawn sprite toggles exactly the cells its bits fall on (R141). -/
theorem State.cell_drawSprite_ne_iff (s : State) (x y : Reg) (n : BitVec 4) {row column : Nat} (hr : row < 32)
    (hc : column < 64) :
    Framebuffer.cell (s.drawSprite x y n).1 row column ≠ s.fb.cell row column ↔ s.spriteBit x y n row column := by
  have hcell := (drawRows_spec ((s.v x).toNat % 64) ((s.v y).toNat % 32) (s.bytesAt (s.ea 0) n.toNat) s.fb false).1
    row column hr hc
  rw [State.spriteHits_iff] at hcell
  rw [State.drawSprite, ne_eq, Bool.eq_iff_iff, hcell]
  generalize s.spriteBit x y n row column = bit
  tauto

theorem Framebuffer.lt_of_cell {fb : Framebuffer} {y x : Nat} (h : fb.cell y x = true) : y < 32 ∧ x < 64 := by
  by_contra hout
  rw [Framebuffer.cell_outside fb hout] at h
  cases h

/-- The collision flag of a drawn sprite: one of its bits fell on a cell that was on (R141). -/
theorem State.collision_drawSprite_iff (s : State) (x y : Reg) (n : BitVec 4) :
    (s.drawSprite x y n).2 = true ↔
      ∃ row column, row < 32 ∧ column < 64 ∧ s.spriteBit x y n row column ∧ s.fb.cell row column = true := by
  have hcol := (drawRows_spec ((s.v x).toNat % 64) ((s.v y).toNat % 32) (s.bytesAt (s.ea 0) n.toNat) s.fb false).2
  simp only [State.spriteHits_iff, Bool.false_eq_true, false_or] at hcol
  rw [State.drawSprite, hcol]
  constructor
  · rintro ⟨row, column, hbit, hon⟩
    obtain ⟨hr, hc⟩ := Framebuffer.lt_of_cell hon
    exact ⟨row, column, hr, hc, hbit, hon⟩
  · rintro ⟨row, column, -, -, hbit, hon⟩
    exact ⟨row, column, hbit, hon⟩

/-- Settles O35: the cells and the collision by the laws of a drawn sprite, the fault by the range check. -/
theorem drawTogglesTheSpriteCells : Obligations.DrawTogglesTheSpriteCells := by
  refine ⟨decodesAs_drw, fun s x y n => ⟨fun hin => ?_, fun hn hout => ?_⟩⟩
  · have hvf : ∀ b, ({ s with fb := (s.drawSprite x y n).1 }.setV Reg.vf b).v Reg.vf = b := State.v_setV_same _ _
    refine ⟨_, exec_drw_of_inRange x y hin, fun row column => s.cell_drawSprite_ne_iff x y n, fun hcol => ?_,
      fun hcol => ?_, fun r => State.v_setV_other _ _, fun a => State.byteAt_congr rfl rfl a, rfl⟩
    · rw [hvf, (s.collision_drawSprite_iff x y n).2 hcol]
      rfl
    · rw [hvf, Bool.eq_false_iff.2 (mt (s.collision_drawSprite_iff x y n).1 hcol)]
      rfl
  · have hpos : n.toNat ≠ 0 := fun h => hn (BitVec.eq_of_toNat_eq h)
    exact (exec_drw x y n s).trans (checked_ea_of_gt _ (by omega) (by omega))

/-- The sprite's bits depend on the two registers of its place, `I` and memory alone. -/
theorem State.spriteBit_congr {s t : State} {x y : Reg} (hx : t.v x = s.v x) (hy : t.v y = s.v y)
    (hI : t.index = s.index) (hp : t.params = s.params) (hm : t.mem = s.mem) (n : BitVec 4) (row column : Nat) :
    t.spriteBit x y n row column ↔ s.spriteBit x y n row column := by
  simp only [State.spriteBit, State.ea, hx, hy, hI, State.byteAt_congr hp hm]

/-- What a draw within memory leaves: the drawn framebuffer, and all that the sprite's place and bytes depend on. -/
theorem exec_drw_inv {s t : State} {x y : Reg} {n : BitVec 4} (hin : n = 0 ∨ s.index.toNat + n.toNat - 1 ≤ 0xFFF)
    (h : exec (.drw x y n) s = .next t) :
    t.fb = (s.drawSprite x y n).1 ∧ t.index = s.index ∧ t.params = s.params ∧ t.mem = s.mem ∧
      ∀ r, r ≠ Reg.vf → t.v r = s.v r := by
  rw [exec_drw_of_inRange x y hin] at h
  cases h
  exact ⟨rfl, rfl, rfl, rfl, fun r => State.v_setV_other _ _⟩

/-- A bit that changed exactly when it had changed before is back. -/
theorem bool_eq_of_ne_iff_ne {a b c : Bool} (h : c ≠ b ↔ b ≠ a) : c = a := by
  revert a b c
  decide

/-- Settles O36: the second draw toggles the cells that the first has toggled. -/
theorem drawingTwiceErases : Obligations.DrawingTwiceErases := by
  intro s t u x y n hx hy hin hst htu
  obtain ⟨htfb, hI, hp, hm, hv⟩ := exec_drw_inv hin hst
  obtain ⟨hufb, -⟩ := exec_drw_inv (hI ▸ hin) htu
  refine Framebuffer.eq_of_cell fun row column hr hc => ?_
  have hfirst := s.cell_drawSprite_ne_iff x y n hr hc
  have hsecond := t.cell_drawSprite_ne_iff x y n hr hc
  rw [State.spriteBit_congr (hv x hx) (hv y hy) hI hp hm, ← hfirst, ← htfb, ← hufb] at hsecond
  exact bool_eq_of_ne_iff_ne hsecond

/-! ## Keys (44_keys_timers.md) -/

theorem exec_skp (x : Reg) (s : State) : exec (.skp x) s = .next (s.skipIf (s.keyIsDown (s.v x).toNat)) := rfl

theorem exec_sknp (x : Reg) (s : State) : exec (.sknp x) s = .next (s.skipIf (!s.keyIsDown (s.v x).toNat)) := rfl

theorem State.skipIf_not (s : State) (b : Bool) :
    s.skipIf (!b) = if b = true then s else { s with pc := s.pc + 2 } := by
  cases b <;> rfl

/-- Settles O37: the key's latch decides up to 15, and above 15 no key is down. -/
theorem keySkips : Obligations.KeySkips := by
  refine ⟨decodesAs_skp, decodesAs_sknp, fun s x => ⟨fun k hk => ?_, fun h => ?_⟩⟩
  · have hdown : s.keyIsDown (s.v x).toNat = s.keys.get k := hk ▸ s.keyIsDown_of_lt k.val k.isLt
    rw [exec_skp, exec_sknp, hdown, State.skipIf_not]
    exact ⟨rfl, rfl⟩
  · rw [exec_skp, exec_sknp, s.keyIsDown_of_ge _ h]
    exact ⟨rfl, rfl⟩

theorem State.not_anyKey {s : State} (h : ∀ k : Key, s.keys.get k = false) : ¬ s.anyKey = true := by
  rw [State.anyKey_iff]
  rintro ⟨k, hk⟩
  exact Bool.false_ne_true ((h k).symm.trans hk)

/-- Settles O38: with a key down `V[X]` is `lastKey`; with none `pc` goes back by the 2 that fetch advanced it. -/
theorem keyWaitBlocksOrLoadsLastKey : Obligations.KeyWaitBlocksOrLoadsLastKey := by
  refine ⟨decodesAs_ldVxK, fun s x => ⟨fun hdown => ?_, fun hup => ⟨?_, fun hpc hw => ?_⟩⟩⟩
  · refine exists_next_toNat_of_setV (exec_ldVxK_of_anyKey x ((State.anyKey_iff s).2 hdown)) ?_
    exact Nat.mod_eq_of_lt (by omega)
  · exact exec_ldVxK_of_not_anyKey x (State.not_anyKey hup)
  · rw [cycle_of_le hpc, hw, exec_ldVxK_of_not_anyKey x (State.not_anyKey (s := { s with pc := s.pc + 2 }) hup)]
    simp

end Sys2Proof.Machine

namespace Sys2Proof.Machine

/-! ## Whole-machine rules: what an execution writes (10_state.md R11, R23, 40_control_flow.md R89) -/

/-- The column "written by" of R23: each piece of state that an execution of `i` may change has `i` in its line. -/
structure WrittenBy (i : Instr) (s t : State) : Prop where
  v : ∀ r, ¬ writesV i r → t.v r = s.v r
  index : t.index ≠ s.index → (∃ nnn, i = .ldI nnn) ∨ (∃ x, i = .addI x) ∨ ∃ x, i = .ldF x
  sp : t.sp ≠ s.sp → i = .ret ∨ ∃ nnn, i = .call nnn
  stack : t.stack ≠ s.stack → ∃ nnn, i = .call nnn
  dt : t.dt ≠ s.dt → ∃ x, i = .ldDtVx x
  st : t.st ≠ s.st → ∃ x, i = .ldStVx x
  fb : t.fb ≠ s.fb → i = .cls ∨ ∃ x y n, i = .drw x y n
  mem : t.mem ≠ s.mem → (∃ x, i = .ldB x) ∨ ∃ x, i = .stRegs x
  draws : t.draws ≠ s.draws → ∃ x nn, i = .rnd x nn

section
variable {i : Instr} {s t : State}

/-- Any instruction may write the V registers that the table gives it, `pc` and the latches. -/
theorem writtenBy_of_regs (hv : ∀ r, ¬ writesV i r → t.v r = s.v r)
    (h : t = { s with regs := t.regs, pc := t.pc, fault := t.fault, faultInfo := t.faultInfo }) :
    WrittenBy i s t where
  v := hv
  index := absurd (congrArg State.index h :)
  sp := absurd (congrArg State.sp h :)
  stack := absurd (congrArg State.stack h :)
  dt := absurd (congrArg State.dt h :)
  st := absurd (congrArg State.st h :)
  fb := absurd (congrArg State.fb h :)
  mem := absurd (congrArg State.mem h :)
  draws := absurd (congrArg State.draws h :)

theorem writtenBy_faulted (i : Instr) (s : State) (cause : FaultCause) (info : Word) :
    WrittenBy i s (s.faulted cause info) := writtenBy_of_regs (fun _ _ => rfl) rfl

theorem writtenBy_checked {a k : Nat} {go : State} (hgo : WrittenBy i s go) (h : checked a k s go = .next t) :
    WrittenBy i s t := by
  rcases checked_cases h with ⟨-, rfl⟩ | ⟨-, rfl⟩
  · exact writtenBy_faulted i s _ _
  · exact hgo

theorem exec_writtenBy (h : exec i s = .next t) : WrittenBy i s t := by
  cases i
  case ret =>
    rcases exec_ret_cases h with ⟨-, rfl⟩ | ⟨hsp, rfl⟩
    · exact writtenBy_faulted _ s _ _
    · constructor <;> simp [State.v]
  case call nnn =>
    rcases exec_call_cases h with ⟨-, rfl⟩ | ⟨hsp, rfl⟩
    · exact writtenBy_faulted _ s _ _
    · constructor <;> simp [State.v]
  case ldVxK x =>
    rcases exec_ldVxK_cases h with ⟨-, rfl⟩ | ⟨hk, rfl⟩
    · exact writtenBy_of_regs (fun r hr => s.v_setV_other _ hr) rfl
    · exact writtenBy_of_regs (fun _ _ => rfl) rfl
  case seImm | sneImm | seReg | sneReg | skp | sknp =>
    cases h
    exact writtenBy_of_regs (fun r _ => State.v_congr (s.skipIf_regs _) r) (by rw [State.skipIf_eq])
  case ldImm | addImm | ldReg | orReg | andReg | xorReg | ldVxDt =>
    cases h
    exact writtenBy_of_regs (fun r hr => s.v_setV_other _ hr) rfl
  case addReg | subReg | shr | subn | shl =>
    cases h
    exact writtenBy_of_regs (fun r hr => s.v_setVThenFlag_other _ _ (not_or.1 hr).1 (not_or.1 hr).2) rfl
  case ldRegs x =>
    refine writtenBy_checked (writtenBy_of_regs (fun r hr => ?_) rfl) h
    exact (s.v_loadBlock x r).trans (if_neg hr)
  case drw x y n =>
    refine writtenBy_checked ?_ h
    constructor
    case v => exact fun r hr => State.v_setV_other _ _ hr
    all_goals simp
  case ldB | stRegs =>
    refine writtenBy_checked ?_ h
    constructor <;> simp [State.v]
  case rnd x nn =>
    cases h
    constructor
    case v => exact fun r hr => State.v_setV_other _ _ hr
    all_goals simp
  case jp | jpV0 | nop =>
    cases h
    exact writtenBy_of_regs (fun _ _ => rfl) rfl
  case cls | ldI | addI | ldF | ldDtVx | ldStVx =>
    cases h
    constructor <;> simp [State.v]

theorem exec_params (h : exec i s = .next t) : t.params = s.params := (congrArg State.params (exec_keeps h) :)

end

/-- Settles O40: the table of R23 line by line, and the pieces that no instruction writes. -/
theorem stateIsWrittenOnlyByItsInstructions : Obligations.StateIsWrittenOnlyByItsInstructions := by
  intro i s t h
  obtain ⟨hv, hindex, hsp, hstack, hdt, hst, hfb, hmem, hdraws⟩ := exec_writtenBy h
  refine ⟨hv, hindex, hsp, hstack, hdt, hst, hfb, fun ⟨a, ha⟩ => hmem fun hm => ?_, hdraws, exec_keeps h⟩
  exact ha (State.byteAt_congr (exec_params h) hm a)

theorem flagByte_zero_or_one (b : Bool) : flagByte b = 0 ∨ flagByte b = 1 := by
  cases b
  · exact .inl rfl
  · exact .inr rfl

theorem lowBitFlag_zero_or_one (b : Byte) : lowBitFlag b = 0 ∨ lowBitFlag b = 1 := by
  rcases Nat.mod_two_eq_zero_or_one b.toNat with h | h
  · exact .inl (BitVec.eq_of_toNat_eq ((toNat_lowBitFlag b).trans h))
  · exact .inr (BitVec.eq_of_toNat_eq ((toNat_lowBitFlag b).trans h))

/-- What a flag-writing instruction leaves in `VF`, unless it faults (R11). -/
theorem exec_flag {i : Instr} {s t : State} (hi : writesFlag i) (h : exec i s = .next t) (ht : t.fault = .none) :
    t.v Reg.vf = 0 ∨ t.v Reg.vf = 1 := by
  cases i
  case addReg | subReg | subn =>
    cases h
    rw [State.v_setVThenFlag_vf]
    exact flagByte_zero_or_one _
  case shr | shl =>
    cases h
    rw [State.v_setVThenFlag_vf]
    exact lowBitFlag_zero_or_one _
  case drw =>
    rcases checked_cases h with ⟨-, rfl⟩ | ⟨-, rfl⟩
    · cases ht
    · rw [State.v_setV_same]
      exact flagByte_zero_or_one _
  all_goals cases hi

/-- Settles O25: each of the six writes a flag value last; every other write of a register is in the table of R23. -/
theorem vfIsAFlagOfSixInstructions : Obligations.VFIsAFlagOfSixInstructions := by
  intro i s t _ h
  refine ⟨fun hi ht => exec_flag hi h ht, fun _ hne => ?_⟩
  by_contra hw
  exact hne ((exec_writtenBy h).v Reg.vf hw)

/-! Where an execution leaves `pc` (R89). -/

/-- The instructions that move `pc`, the skips and the wait with the amount. -/
def MovesPc (i : Instr) (s t : State) : Prop :=
  i = .ret ∨ (∃ nnn, i = .jp nnn ∨ i = .call nnn ∨ i = .jpV0 nnn) ∨
  (t.pc = s.pc + 2 ∧ ((∃ x nn, i = .seImm x nn ∨ i = .sneImm x nn) ∨
    (∃ x y n, i = .seReg x y n ∨ i = .sneReg x y n) ∨ ∃ x, i = .skp x ∨ i = .sknp x)) ∨
  (t.pc = s.pc - 2 ∧ ∃ x, i = .ldVxK x ∧ ∀ k : Key, s.keys.get k = false)

theorem State.skipIf_pc_cases (s : State) (b : Bool) : (s.skipIf b).pc = s.pc ∨ (s.skipIf b).pc = s.pc + 2 := by
  cases b
  · exact .inl rfl
  · exact .inr rfl

theorem State.keys_of_not_anyKey {s : State} (h : ¬ s.anyKey = true) (k : Key) : s.keys.get k = false :=
  Bool.eq_false_iff.2 fun hk => h ((State.anyKey_iff s).2 ⟨k, hk⟩)

/-- An execution leaves `pc` alone, moves it as its instruction does, or faults. -/
theorem exec_pc_cases {i : Instr} {s t : State} (h : exec i s = .next t) :
    t.pc = s.pc ∨ MovesPc i s t ∨ ∃ cause info, cause ≠ .none ∧ t = s.faulted cause info := by
  cases i
  case ret => exact .inr (.inl (.inl rfl))
  case jp nnn | call nnn | jpV0 nnn => exact .inr (.inl (.inr (.inl ⟨nnn, by simp⟩)))
  case drw | ldB | stRegs | ldRegs =>
    rcases checked_cases h with ⟨-, rfl⟩ | ⟨-, rfl⟩
    · exact .inr (.inr ⟨_, _, by decide, rfl⟩)
    · exact .inl rfl
  case seImm | sneImm | seReg | sneReg | skp | sknp =>
    cases h
    exact (s.skipIf_pc_cases _).imp id fun hpc => .inl (.inr (.inr (.inl ⟨hpc, by simp⟩)))
  case ldVxK x =>
    rcases exec_ldVxK_cases h with ⟨-, rfl⟩ | ⟨hk, rfl⟩
    · exact .inl rfl
    · exact .inr (.inl (.inr (.inr (.inr ⟨rfl, x, rfl, State.keys_of_not_anyKey hk⟩))))
  all_goals cases h; exact .inl rfl

/-- Settles O41: an execution that moved `pc` and did not fault is of an instruction that moves `pc`. -/
theorem onlyControlTransfersMovePc : Obligations.OnlyControlTransfersMovePc := by
  intro i s t _ h hpc ht
  rcases exec_pc_cases h with hsame | hmoves | ⟨cause, info, hcause, rfl⟩
  · exact absurd hsame hpc
  · exact hmoves
  · exact absurd ht hcause

end Sys2Proof.Machine

namespace Sys2Proof.Machine

open Sys2Proof.Config

/-! ## Whole-machine rules: relations that every step keeps (60_exceptions.md R181, R189)

A relation between two machines that every kind of move keeps is kept by every step, if it lets the machines differ at
most in what no move's choice depends on: the stack and `lastKey`. An invariant is such a relation of a machine to
itself. -/

/-- The state with another stack and another `lastKey`. -/
def State.withHidden (s : State) (stack : List Word) (k : Key) : State := { s with stack := stack, lastKey := k }

/-- The updates of the state that the moves other than a cycle and a load make. -/
inductive MoveUpdate : (State → State) → Prop where
  | tick : MoveUpdate tick
  | withResiduals {e : ℚ} (he : 0 ≤ e) : MoveUpdate (State.withResiduals · e)
  | schedule (rest : List Move) : MoveUpdate fun s => { s with schedule := rest }
  | keyDown (k : Key) : MoveUpdate (keyDown k)
  | keyUp (k : Key) : MoveUpdate (keyUp k)
  | togglePause : MoveUpdate togglePause

/-- Every kind of move from related states leads to related states. -/
structure Simulation (R : State → State → Prop) : Prop where
  same : ∀ {s t : State}, R s t → t = s.withHidden t.stack t.lastKey
  of_cycle : ∀ {s t s' : State}, R s t → cycle s = .next s' → ∃ t', cycle t = .next t' ∧ R s' t'
  of_update : ∀ {f : State → State} {s t : State}, MoveUpdate f → R s t → R (f s) (f t)
  of_load : ∀ {s t : State} (program : List Byte), R s t → R (load program s) (load program t)

theorem applyMove_cycle_of_running {s : State} (h : s.running = true) : applyMove .cycle s = cycle s := if_pos h

theorem applyMove_cycle_of_not_running {s : State} (h : s.running = false) : applyMove .cycle s = .next s :=
  if_neg (Bool.eq_false_iff.1 h)

theorem applyMove_tick_of_running {s : State} (h : s.running = true) : applyMove .tick s = .next (tick s) :=
  congrArg _ (if_pos h)

theorem applyMove_tick_of_not_running {s : State} (h : s.running = false) : applyMove .tick s = .next s :=
  congrArg _ (if_neg (Bool.eq_false_iff.1 h))

section
variable {R : State → State → Prop} {s t s' : State}

theorem Simulation.cycles (hR : Simulation R) {m : Nat} (h : R s t) (hs : cycles m s = .next s') :
    ∃ t', cycles m t = .next t' ∧ R s' t' := by
  induction m generalizing s t with
  | zero =>
    cases hs
    exact ⟨t, rfl, h⟩
  | succ m ih =>
    have hfault : t.fault = s.fault := (congrArg State.fault (hR.same h) :)
    rcases cycles_succ_cases hs with ⟨hf, u, hu, hs⟩ | ⟨hf, rfl⟩
    · obtain ⟨w, hw, huw⟩ := hR.of_cycle h hu
      rw [Machine.cycles, if_pos (hfault.trans hf), hw]
      exact ih huw hs
    · exact ⟨t, if_neg (hfault ▸ hf), h⟩

theorem Simulation.ticks (hR : Simulation R) (n : Nat) (h : R s t) : R (ticks n s) (ticks n t) := by
  induction n generalizing s t with
  | zero => exact h
  | succ n ih => exact ih (hR.of_update .tick h)

theorem Simulation.running (hR : Simulation R) (h : R s t) : t.running = s.running :=
  (congrArg State.running (hR.same h) :)

theorem Simulation.advance (hR : Simulation R) {e : ℚ} (he : 0 ≤ e) (h : R s t) (hs : advance e s = .next s') :
    ∃ t', advance e t = .next t' ∧ R s' t' := by
  have hrun := hR.running h
  cases hr : s.running
  · rw [advance_of_not_running hr he] at hs
    cases hs
    exact ⟨t, advance_of_not_running (hrun.trans hr) he, h⟩
  · have htick : t.tickTotal e = s.tickTotal e := (congrArg (State.tickTotal · e) (hR.same h) :)
    have hcycle : t.cycleTotal e = s.cycleTotal e := (congrArg (State.cycleTotal · e) (hR.same h) :)
    rw [advance_of_running hr he] at hs
    rw [advance_of_running (hrun.trans hr) he, htick, hcycle]
    exact hR.cycles (hR.ticks _ (hR.of_update (.withResiduals he) h)) hs

theorem Simulation.applyMove (hR : Simulation R) (m : Move) (h : R s t) (hs : applyMove m s = .next s') :
    ∃ t', applyMove m t = .next t' ∧ R s' t' := by
  have hrun := hR.running h
  cases m
  case cycle =>
    cases hr : s.running
    · rw [applyMove_cycle_of_not_running hr] at hs
      cases hs
      exact ⟨t, applyMove_cycle_of_not_running (hrun.trans hr), h⟩
    · rw [applyMove_cycle_of_running hr] at hs
      rw [applyMove_cycle_of_running (hrun.trans hr)]
      exact hR.of_cycle h hs
  case tick =>
    cases hr : s.running
    · rw [applyMove_tick_of_not_running hr] at hs
      cases hs
      exact ⟨t, applyMove_tick_of_not_running (hrun.trans hr), h⟩
    · rw [applyMove_tick_of_running hr] at hs
      cases hs
      exact ⟨_, applyMove_tick_of_running (hrun.trans hr), hR.of_update .tick h⟩
  case advance e =>
    by_cases he : e < 0
    · rw [Machine.applyMove, advance_of_neg he] at hs
      cases hs
    · exact hR.advance (not_lt.1 he) h hs
  case keyDown k =>
    cases hs
    exact ⟨_, rfl, hR.of_update (.keyDown k) h⟩
  case keyUp k =>
    cases hs
    exact ⟨_, rfl, hR.of_update (.keyUp k) h⟩
  case togglePause =>
    cases hs
    exact ⟨_, rfl, hR.of_update .togglePause h⟩
  case load program =>
    cases hs
    exact ⟨_, rfl, hR.of_load program h⟩

/-- A relation that every kind of move keeps is kept by every step. -/
theorem Simulation.step (hR : Simulation R) (h : R s t) (hs : step s = .next s') :
    ∃ t', step t = .next t' ∧ R s' t' := by
  have hsch : t.schedule = s.schedule := (congrArg State.schedule (hR.same h) :)
  cases hm : s.schedule with
  | nil =>
    rw [step_unscheduled hm] at hs
    rw [step_unscheduled (hsch.trans hm)]
    have hfault : t.fault = s.fault := (congrArg State.fault (hR.same h) :)
    have hpaused : t.paused = s.paused := (congrArg State.paused (hR.same h) :)
    rcases coreTurn_cases hs with ⟨-, h'⟩ | ⟨hf, hp, h'⟩ | ⟨hf, hp, h'⟩
    · cases h'
    · cases h'
      refine ⟨t, ?_, h⟩
      rw [coreTurn, if_pos (hfault.trans hf), if_pos (hpaused.trans hp)]
    · rw [coreTurn, if_pos (hfault.trans hf), if_neg (by rw [hpaused, hp]; decide)]
      exact hR.of_cycle h h'.symm
  | cons m rest =>
    rw [step_scheduled hm] at hs
    rw [step_scheduled (hsch.trans hm)]
    exact hR.applyMove m (hR.of_update (.schedule rest) h) hs

end

/-! ## Whole-machine rules: the invariant (10_state.md, 40_control_flow.md R90) -/

/-- A store that is checked whole keeps memory canonical (R47). -/
theorem checked_storeBytes_mem_wf {s t : State} {k : Nat} {bs : List Byte} (hwf : Memory.wf s.params s.mem)
    (hk : 1 ≤ k) (hlen : bs.length = k) (h : checked (s.ea 0) k s (s.storeBytes (s.ea 0) bs) = .next t) :
    Memory.wf t.params t.mem := by
  rcases checked_cases h with ⟨-, rfl⟩ | ⟨hr, rfl⟩
  · exact hwf
  · rw [outOfRange_iff] at hr
    exact Memory.writeBytes_wf hwf _ bs (by rw [memSize]; omega)

theorem exec_mem_wf {i : Instr} {s t : State} (hwf : Memory.wf s.params s.mem) (h : exec i s = .next t) :
    Memory.wf t.params t.mem := by
  by_cases hm : t.mem = s.mem
  · rwa [exec_params h, hm]
  · rcases (exec_writtenBy h).mem hm with ⟨x, rfl⟩ | ⟨x, rfl⟩
    · exact checked_storeBytes_mem_wf hwf (by omega) (length_decimalDigits (s.v x)) h
    · exact checked_storeBytes_mem_wf hwf (by omega) (s.length_vUpTo x) h

theorem cycle_mem_wf {s t : State} (hwf : Memory.wf s.params s.mem) (h : cycle s = .next t) :
    Memory.wf t.params t.mem := by
  rcases cycle_cases h with ⟨-, h⟩ | ⟨-, h⟩
  · cases h
    exact hwf
  · exact exec_mem_wf (s := { s with pc := s.pc + 2 }) hwf h.symm

theorem load_mem_wf {s : State} (program : List Byte) (hwf : Memory.wf s.params s.mem) :
    Memory.wf (load program s).params (load program s).mem := by
  by_cases hlen : program.length ≤ romMax
  · rw [load_of_le hlen]
    refine Memory.writeBytes_wf Memory.wf_nil _ program ?_
    rw [progBase, memSize]
    rw [romMax] at hlen
    omega
  · rwa [load_of_gt (not_le.1 hlen)]

/-- A machine that meets `P`, related to itself. -/
def SelfRel (P : State → Prop) (s t : State) : Prop := t = s ∧ P s

/-- What every kind of move keeps is an invariant of steps. -/
theorem step_keeps {P : State → Prop} (hcycle : ∀ {s t : State}, P s → cycle s = .next t → P t)
    (hupdate : ∀ {f : State → State} {s : State}, MoveUpdate f → P s → P (f s))
    (hload : ∀ {s : State} (program : List Byte), P s → P (load program s)) {s t : State} (hs : P s)
    (h : step s = .next t) : P t := by
  have hself : Simulation (SelfRel P) :=
    { same := by
        rintro s _ ⟨rfl, -⟩
        rfl
      of_cycle := by
        rintro s _ s' ⟨rfl, hs⟩ h
        exact ⟨s', h, rfl, hcycle hs h⟩
      of_update := by
        rintro f s _ hf ⟨rfl, hs⟩
        exact ⟨rfl, hupdate hf hs⟩
      of_load := by
        rintro s _ program ⟨rfl, hs⟩
        exact ⟨rfl, hload program hs⟩ }
  obtain ⟨t', -, -, ht⟩ := hself.step ⟨rfl, hs⟩ h
  exact ht

/-- No update of a move touches memory. -/
theorem MoveUpdate.mem_wf {f : State → State} (hf : MoveUpdate f) {s : State} (hwf : Memory.wf s.params s.mem) :
    Memory.wf (f s).params (f s).mem := by
  cases hf <;> exact hwf

/-- Settles O45: cycles and loads store within memory, and no other move stores. -/
theorem everyStepKeepsMemoryCanonical : Obligations.EveryStepKeepsMemoryCanonical := fun _ _ =>
  step_keeps (P := fun s => Memory.wf s.params s.mem) cycle_mem_wf (fun hf hs => hf.mem_wf hs) load_mem_wf

theorem toNat_sub_two {w : Word} (h : 2 ≤ w.toNat) : (w - 2).toNat = w.toNat - 2 :=
  BitVec.toNat_sub_of_le (BitVec.le_def.2 h)

theorem toNat_add_two {w : Word} (h : w.toNat ≤ 0x1000) : (w + 2).toNat = w.toNat + 2 := by
  have htwo : (2 : Word).toNat = 2 := rfl
  rw [BitVec.toNat_add, htwo]
  omega

section
variable {i : Instr} {s t : State}

/-- The bound of `pc`: the largest value is the target of `BNNN`, and a return goes to a pushed address (R90). -/
theorem State.Inv.exec_pc_le (hs : s.Inv) (hlo : 2 ≤ s.pc.toNat) (hhi : s.pc.toNat ≤ 0x1000)
    (h : exec i s = .next t) : t.pc.toNat ≤ 0x10FE := by
  have hback : (s.pc - 2).toNat ≤ 0x10FE := by
    rw [toNat_sub_two hlo]
    omega
  have haddress : ∀ nnn : BitVec 12, (address nnn).toNat ≤ 0x10FE := fun nnn => by
    rw [toNat_address]
    omega
  rcases exec_pc_cases h with hpc | hmoves | ⟨cause, info, -, rfl⟩
  · rw [hpc]
    omega
  · rcases hmoves with rfl | ⟨nnn, rfl | rfl | rfl⟩ | ⟨hpc, -⟩ | ⟨hpc, -⟩
    · rcases exec_ret_cases h with ⟨-, rfl⟩ | ⟨hsp, rfl⟩
      · exact hback
      · exact (hs.return_le (s.sp - 1) (by omega)).trans (by omega)
    · cases h
      exact haddress nnn
    · rcases exec_call_cases h with ⟨-, rfl⟩ | ⟨hsp, rfl⟩
      · exact hback
      · exact haddress nnn
    · cases h
      change (address nnn + s.vWord 0).toNat ≤ 0x10FE
      rw [toNat_address_add_vWord]
      omega
    · rw [hpc, toNat_add_two hhi]
      omega
    · rwa [hpc]
  · exact hback

/-- The relations of R14 and R90 between the stack and its count. -/
def State.StackBounded (s : State) : Prop :=
  s.stack.length = s.params.stackDepth ∧ s.sp ≤ s.params.stackDepth ∧ ∀ j < s.sp, (s.stackAt j).toNat ≤ 0x1000

theorem State.Inv.stackBounded (hs : s.Inv) : s.StackBounded := ⟨hs.stack_length, hs.sp_le, hs.return_le⟩

/-- A push below the bound keeps the stack's bounds, if the address pushed is at most 0x1000. -/
theorem State.StackBounded.push {w : Word} (hs : s.StackBounded) (hsp : s.sp ≠ s.params.stackDepth)
    (hw : w.toNat ≤ 0x1000) : (s.push w).StackBounded := by
  obtain ⟨hlen, hle, hret⟩ := hs
  refine ⟨List.length_set.trans hlen, Nat.lt_of_le_of_ne hle hsp, fun j hj => ?_⟩
  by_cases hj' : j = s.sp
  · subst hj'
    rwa [s.stackAt_push_top w (by omega)]
  · rw [s.stackAt_push_other w hj']
    exact hret j (Nat.lt_of_le_of_ne (Nat.le_of_lt_succ hj) hj')

theorem State.StackBounded.exec (hs : s.StackBounded) (hpc : s.pc.toNat ≤ 0x1000) (h : exec i s = .next t) :
    t.StackBounded := by
  by_cases hi : i = .ret ∨ ∃ nnn, i = .call nnn
  · rcases hi with rfl | ⟨nnn, rfl⟩
    · rcases exec_ret_cases h with ⟨-, rfl⟩ | ⟨hsp, rfl⟩
      · exact hs
      · obtain ⟨hlen, hle, hret⟩ := hs
        exact ⟨hlen, (Nat.sub_le _ _).trans hle, fun j hj => hret j (hj.trans_le (Nat.sub_le _ _))⟩
    · rcases exec_call_cases h with ⟨-, rfl⟩ | ⟨hsp, rfl⟩
      · exact hs
      · exact hs.push hsp hpc
  · have hsp : t.sp = s.sp := by_contra fun hne => hi ((exec_writtenBy h).sp hne)
    have hstack : t.stack = s.stack := by_contra fun hne => hi (.inr ((exec_writtenBy h).stack hne))
    simpa only [State.StackBounded, State.stackAt, hsp, hstack, exec_params h] using hs

/-- An execution keeps the invariant; the state is one whose `pc` fetch has advanced. -/
theorem State.Inv.exec (hs : s.Inv) (hlo : 2 ≤ s.pc.toNat) (hhi : s.pc.toNat ≤ 0x1000) (h : exec i s = .next t) :
    t.Inv := by
  obtain ⟨hlen, hle, hret⟩ := hs.stackBounded.exec hhi h
  have htick : t.tickAcc = s.tickAcc := (congrArg State.tickAcc (exec_keeps h) :)
  have hcycle : t.cycleAcc = s.cycleAcc := (congrArg State.cycleAcc (exec_keeps h) :)
  refine ⟨exec_params h ▸ hs.params_valid, exec_mem_wf hs.mem_wf h, hlen, hle, hret, hs.exec_pc_le hlo hhi h,
    htick ▸ hs.tick_nonneg, htick ▸ hs.tick_lt, hcycle ▸ hs.cycle_nonneg, hcycle ▸ hs.cycle_lt, fun hf => ?_⟩
  rcases exec_raises_or_keeps_latches h with ⟨hfault, hinfo⟩ | ⟨cause, info, hcause, rfl⟩
  · rw [hinfo, hs.info_zero (hfault.symm.trans hf)]
  · exact absurd hf hcause

theorem State.Inv.cycle (hs : s.Inv) (h : cycle s = .next t) : t.Inv := by
  rcases cycle_cases h with ⟨-, h⟩ | ⟨hpc, h⟩
  · cases h
    exact { hs with info_zero := fun hf => by cases hf }
  · have hadv : (s.pc + 2).toNat = s.pc.toNat + 2 := toNat_add_two (by omega)
    have hinv : State.Inv { s with pc := s.pc + 2 } :=
      { hs with pc_le := hadv.trans_le (by omega) }
    exact hinv.exec (le_of_le_of_eq (by omega) hadv.symm) (hadv.trans_le (by omega)) h.symm

theorem State.tickTotal_nonneg {e : ℚ} (hs : 0 ≤ s.tickAcc) (he : 0 ≤ e) : 0 ≤ s.tickTotal e := by
  unfold State.tickTotal tickHz
  positivity

theorem State.cycleTotal_nonneg {e : ℚ} (hs : 0 ≤ s.cycleAcc) (hhz : 0 < s.params.cycleHz) (he : 0 ≤ e) :
    0 ≤ s.cycleTotal e := by
  unfold State.cycleTotal
  positivity

theorem MoveUpdate.inv {f : State → State} (hf : MoveUpdate f) (hs : s.Inv) : (f s).Inv := by
  cases hf
  case withResiduals e he =>
    obtain ⟨htick0, htick1⟩ := wholePeriods_residual (State.tickTotal_nonneg hs.tick_nonneg he)
    obtain ⟨hcycle0, hcycle1⟩ :=
      wholePeriods_residual (State.cycleTotal_nonneg hs.cycle_nonneg hs.params_valid.2.2 he)
    exact { hs with tick_nonneg := htick0, tick_lt := htick1, cycle_nonneg := hcycle0, cycle_lt := hcycle1 }
  all_goals exact { hs with }

/-- The invariant of a reset machine, whatever the parameters and the model's own fields are (R24). -/
theorem State.inv_resetWith {p : Params} (hp : p.valid) (draws : Nat) (schedule : List Move) :
    State.Inv { State.resetWith p with draws := draws, schedule := schedule } where
  params_valid := hp
  mem_wf := Memory.wf_nil
  stack_length := List.length_replicate
  sp_le := Nat.zero_le _
  return_le := fun j hj => absurd hj (Nat.not_lt_zero j)
  pc_le := show (0x200 : Word).toNat ≤ 0x10FE by decide
  tick_nonneg := le_refl (0 : ℚ)
  tick_lt := one_pos
  cycle_nonneg := le_refl (0 : ℚ)
  cycle_lt := one_pos
  info_zero := fun _ => rfl

theorem State.Inv.load (program : List Byte) (hs : s.Inv) : (load program s).Inv := by
  have hwf := load_mem_wf program hs.mem_wf
  by_cases hlen : program.length ≤ romMax
  · rw [load_of_le hlen] at hwf ⊢
    exact { State.inv_resetWith hs.params_valid s.draws s.schedule with mem_wf := hwf }
  · rwa [load_of_gt (not_le.1 hlen)]

end

/-- Settles O44: cycles, loads and the other moves' updates keep the invariant. -/
theorem everyStepKeepsTheInvariant : Obligations.EveryStepKeepsTheInvariant := fun _ _ =>
  step_keeps State.Inv.cycle (fun hf hs => hf.inv hs) State.Inv.load

theorem valid_default : Params.default.valid := ⟨by decide, by decide, by norm_num [Params.default]⟩

/-- Settles O43: the reset state is a reset machine with the default parameters. -/
theorem resetStateMeetsTheInvariant : Obligations.ResetStateMeetsTheInvariant :=
  State.inv_resetWith valid_default 0 []

end Sys2Proof.Machine

namespace Sys2Proof.Machine

open Sys2Proof.Config

/-! ## Whole-machine rules: unused stack entries and `lastKey` are unobservable (10_state.md R14, R24) -/

/-- The instructions whose meaning reads or writes the stack or reads `lastKey`. -/
def readsHidden (i : Instr) : Prop := i = .ret ∨ (∃ nnn, i = .call nnn) ∨ ∃ x, i = .ldVxK x

section
variable {i : Instr} {s t s' : State}

theorem State.skipIf_withHidden (s : State) (stack : List Word) (k : Key) (b : Bool) :
    (s.withHidden stack k).skipIf b = (s.skipIf b).withHidden stack k := by
  cases b <;> rfl

theorem State.bytesAt_withHidden (s : State) (stack : List Word) (k : Key) (a n : Nat) :
    (s.withHidden stack k).bytesAt a n = s.bytesAt a n :=
  State.bytesAt_congr (s := s) (t := s.withHidden stack k) rfl rfl a n

theorem State.drawSprite_withHidden (s : State) (stack : List Word) (k : Key) (x y : Reg) (n : BitVec 4) :
    (s.withHidden stack k).drawSprite x y n = s.drawSprite x y n := by
  rw [State.drawSprite, State.bytesAt_withHidden]
  rfl

theorem checked_withHidden {a n : Nat} {go : State} (stack : List Word) (k : Key)
    (h : checked a n s go = .next s') :
    checked a n (s.withHidden stack k) (go.withHidden stack k) = .next (s'.withHidden stack k) := by
  rcases checked_cases h with ⟨hr, rfl⟩ | ⟨hr, rfl⟩
  · exact checked_of_outOfRange _ hr
  · exact checked_of_inRange _ hr

/-- Any other instruction does the same whatever the stack and `lastKey` are. -/
theorem exec_withHidden (hi : ¬ readsHidden i) (h : exec i s = .next s') (stack : List Word) (k : Key) :
    exec i (s.withHidden stack k) = .next (s'.withHidden stack k) := by
  cases i
  case ret => exact absurd (.inl rfl) hi
  case call nnn => exact absurd (.inr (.inl ⟨nnn, rfl⟩)) hi
  case ldVxK x => exact absurd (.inr (.inr ⟨x, rfl⟩)) hi
  case ldB | stRegs => exact checked_withHidden stack k h
  case ldRegs x =>
    rw [exec_ldRegs] at h ⊢
    rw [State.bytesAt_withHidden]
    exact checked_withHidden stack k h
  case drw x y n =>
    rw [exec_drw] at h ⊢
    rw [State.drawSprite_withHidden]
    exact checked_withHidden stack k h
  case seImm | sneImm | seReg | sneReg | skp | sknp =>
    cases h
    exact congrArg _ (s.skipIf_withHidden stack k _)
  all_goals cases h; rfl

theorem exec_sp_stack (hi : ¬ readsHidden i) (h : exec i s = .next s') : s'.sp = s.sp ∧ s'.stack = s.stack := by
  constructor
  · by_contra hne
    exact hi (((exec_writtenBy h).sp hne).imp_right .inl)
  · by_contra hne
    exact hi (.inr (.inl ((exec_writtenBy h).stack hne)))

theorem exec_keys (h : exec i s = .next s') : s'.keys = s.keys := (congrArg State.keys (exec_keeps h) :)

theorem exec_lastKey (h : exec i s = .next s') : s'.lastKey = s.lastKey :=
  (congrArg State.lastKey (exec_keeps h) :)

/-- A relation that every execution keeps is kept by a cycle, if it allows for equal `pc` and equal latches. -/
theorem cycle_simulates {R : State → State → Prop} (same : ∀ {s t}, R s t → t = s.withHidden t.stack t.lastKey)
    (of_pc : ∀ {s t} (pc : Word), R s t → R { s with pc := pc } { t with pc := pc })
    (of_latches : ∀ {s t} (cause : FaultCause) (info : Word), R s t →
      R { s with fault := cause, faultInfo := info } { t with fault := cause, faultInfo := info })
    (of_exec : ∀ {i s t s'}, R s t → exec i s = .next s' → ∃ t', exec i t = .next t' ∧ R s' t')
    (h : R s t) (hs : cycle s = .next s') : ∃ t', cycle t = .next t' ∧ R s' t' := by
  have hpc : t.pc = s.pc := (congrArg State.pc (same h) :)
  have hword : t.wordAt t.pc.toNat = s.wordAt s.pc.toNat := by
    rw [hpc]
    exact (congrArg (State.wordAt · s.pc.toNat) (same h) :)
  rcases cycle_cases hs with ⟨hge, hs⟩ | ⟨hle, hs⟩
  · cases hs
    have hinfo : (rangeFault t.pc).2 = rangeInfo s.pc.toNat := by rw [hpc, rangeInfo_toNat]
    rw [cycle_of_ge (hpc ▸ hge), hinfo]
    exact ⟨_, rfl, of_latches _ _ h⟩
  · rw [cycle_of_le (hpc ▸ hle), hword, hpc]
    exact of_exec (of_pc _ h) hs.symm

/-- The outcomes that stop a step are those of O46, which depend on the schedule and the latches alone. -/
theorem Simulation.step_fault {R : State → State → Prop} (hR : Simulation R) (h : R s t) {f : Fault}
    (hs : Machine.step s = .fault f) : Machine.step t = .fault f := by
  have hfault : t.fault = s.fault := (congrArg State.fault (hR.same h) :)
  have hinfo : t.faultInfo = s.faultInfo := (congrArg State.faultInfo (hR.same h) :)
  have hsch : t.schedule = s.schedule := (congrArg State.schedule (hR.same h) :)
  rcases stepsStopOnlyWhenHaltedOrNegative s with ⟨s', h'⟩ | ⟨hnil, hf, h'⟩ | ⟨e, rest, -, -, h'⟩
  · rw [h'] at hs
    cases hs
  · rw [h'] at hs
    rw [step_unscheduled (hsch.trans hnil), coreTurn, if_neg (hfault ▸ hf), hfault, hinfo, hs]
  · rw [h'] at hs
    cases hs

theorem Simulation.step_refused {R : State → State → Prop} (hR : Simulation R) (h : R s t) {r : Refusal}
    (hs : Machine.step s = .refused r) : Machine.step t = .refused r := by
  have hsch : t.schedule = s.schedule := (congrArg State.schedule (hR.same h) :)
  rcases stepsStopOnlyWhenHaltedOrNegative s with ⟨s', h'⟩ | ⟨-, -, h'⟩ | ⟨e, rest, he, hadv, h'⟩
  · rw [h'] at hs
    cases hs
  · rw [h'] at hs
    cases hs
  · rw [h'] at hs
    rw [step_scheduled (hsch.trans hadv), Machine.applyMove, advance_of_neg he, hs]

/-! Stack entries not in use. -/

/-- The second state is the first with a stack that agrees with its stack in the entries in use (R14). -/
def StackAgrees (s t : State) : Prop :=
  ∃ stack, t = s.withHidden stack s.lastKey ∧ stack.length = s.stack.length ∧ ∀ j < s.sp, stack.getD j 0 = s.stackAt j

theorem sameBelowSp_iff : sameBelowSp s t ↔ StackAgrees s t := by
  constructor
  · rintro ⟨ht, hlen, hat⟩
    exact ⟨t.stack, ht, hlen, hat⟩
  · rintro ⟨stack, rfl, hlen, hat⟩
    exact ⟨rfl, hlen, hat⟩

theorem StackAgrees.refl (s : State) : StackAgrees s s := ⟨s.stack, rfl, rfl, fun _ _ => rfl⟩

/-- The same push onto agreeing stacks: the new entry is in use in both, or past the end of both. -/
theorem StackAgrees.push {stack : List Word} {w : Word} (hlen : stack.length = s.stack.length)
    (hat : ∀ j < s.sp, stack.getD j 0 = s.stackAt j) :
    ∀ j < s.sp + 1, (stack.set s.sp w).getD j 0 = (s.push w).stackAt j := by
  intro j hj
  simp only [State.stackAt, State.push_stack, List.getD_eq_getElem?_getD, List.getElem?_set, hlen] at hat ⊢
  split
  · rfl
  · exact hat j (by omega)

theorem StackAgrees.exec (h : StackAgrees s t) (hs : exec i s = .next s') :
    ∃ t', exec i t = .next t' ∧ StackAgrees s' t' := by
  obtain ⟨stack, rfl, hlen, hat⟩ := h
  by_cases hi : readsHidden i
  · rcases hi with rfl | ⟨nnn, rfl⟩ | ⟨x, rfl⟩
    · rcases exec_ret_cases hs with ⟨hsp, rfl⟩ | ⟨hsp, rfl⟩
      · exact ⟨_, exec_ret_of_sp_eq_zero hsp, stack, rfl, hlen, hat⟩
      · refine ⟨_, exec_ret_of_sp_ne_zero hsp, stack, ?_, hlen, fun j hj => hat j (hj.trans_le (Nat.sub_le _ _))⟩
        exact congrArg (fun w => { s.withHidden stack s.lastKey with sp := s.sp - 1, pc := w })
          (hat (s.sp - 1) (by omega))
    · rcases exec_call_cases hs with ⟨hsp, rfl⟩ | ⟨hsp, rfl⟩
      · exact ⟨_, exec_call_of_full nnn hsp, stack, rfl, hlen, hat⟩
      · exact ⟨_, exec_call_of_not_full nnn hsp, stack.set s.sp s.pc, rfl, by simpa using hlen,
          StackAgrees.push hlen hat⟩
    · rcases exec_ldVxK_cases hs with ⟨hk, rfl⟩ | ⟨hk, rfl⟩
      · exact ⟨_, exec_ldVxK_of_anyKey x hk, stack, rfl, hlen, hat⟩
      · exact ⟨_, exec_ldVxK_of_not_anyKey x hk, stack, rfl, hlen, hat⟩
  · obtain ⟨hsp, hstack⟩ := exec_sp_stack hi hs
    refine ⟨_, exec_withHidden hi hs stack s.lastKey, stack, by rw [exec_lastKey hs], hstack ▸ hlen, ?_⟩
    rw [hsp]
    intro j hj
    rw [State.stackAt_congr hstack, hat j hj]

theorem simulation_stackAgrees : Simulation StackAgrees := by
  have same : ∀ {s t : State}, StackAgrees s t → t = s.withHidden t.stack t.lastKey := by
    rintro s _ ⟨stack, rfl, -⟩
    rfl
  refine ⟨same, cycle_simulates same ?_ ?_ StackAgrees.exec, ?_, ?_⟩
  · rintro s _ pc ⟨stack, rfl, hlen, hat⟩
    exact ⟨stack, rfl, hlen, hat⟩
  · rintro s _ cause info ⟨stack, rfl, hlen, hat⟩
    exact ⟨stack, rfl, hlen, hat⟩
  · rintro f s _ hf ⟨stack, rfl, hlen, hat⟩
    cases hf <;> exact ⟨stack, rfl, hlen, hat⟩
  · intro s t program h
    by_cases hlen : program.length ≤ romMax
    · obtain ⟨stack, rfl, -⟩ := h
      rw [load_of_le hlen, load_of_le hlen]
      exact StackAgrees.refl _
    · rwa [load_of_gt (not_le.1 hlen), load_of_gt (not_le.1 hlen)]

end

/-- Settles O57: agreement of the stacks in the entries in use is kept by every kind of move. -/
theorem unusedStackEntriesAreUnobservable : Obligations.UnusedStackEntriesAreUnobservable := by
  intro s t h
  rw [sameBelowSp_iff] at h
  refine ⟨fun s' hs => ?_, fun f => simulation_stackAgrees.step_fault h,
    fun r => simulation_stackAgrees.step_refused h⟩
  obtain ⟨t', ht, h'⟩ := simulation_stackAgrees.step h hs
  exact ⟨t', ht, sameBelowSp_iff.2 h'⟩

/-! `lastKey` while no key is down. -/

section
variable {i : Instr} {k : Key} {s t s' : State}

/-- A key latch after an event at key `k`. -/
theorem get_set_key (keys : Vector Bool 16) (k j : Key) (b : Bool) :
    (keys.set k.val b k.isLt).get j = if j = k then b else keys.get j := by
  change (keys.set k.val b k.isLt)[j.val] = _
  rw [Vector.getElem_set]
  simp only [Fin.ext_iff, eq_comm]
  rfl

/-- The two states are equal, or no key is down and the second has `k` for `lastKey`. -/
def LastKeyAgrees (k : Key) (s t : State) : Prop :=
  t = s ∨ (t = s.withHidden s.stack k ∧ ∀ j, s.keys.get j = false)

theorem LastKeyAgrees.exec (h : LastKeyAgrees k s t) (hs : exec i s = .next s') :
    ∃ t', exec i t = .next t' ∧ LastKeyAgrees k s' t' := by
  obtain rfl | ⟨rfl, hup⟩ := h
  · exact ⟨s', hs, .inl rfl⟩
  have hup' : ∀ j, s'.keys.get j = false := by rwa [exec_keys hs]
  by_cases hi : readsHidden i
  · rcases hi with rfl | ⟨nnn, rfl⟩ | ⟨x, rfl⟩
    · rcases exec_ret_cases hs with ⟨hsp, rfl⟩ | ⟨hsp, rfl⟩
      · exact ⟨_, exec_ret_of_sp_eq_zero hsp, .inr ⟨rfl, hup'⟩⟩
      · exact ⟨_, exec_ret_of_sp_ne_zero hsp, .inr ⟨rfl, hup'⟩⟩
    · rcases exec_call_cases hs with ⟨hsp, rfl⟩ | ⟨hsp, rfl⟩
      · exact ⟨_, exec_call_of_full nnn hsp, .inr ⟨rfl, hup'⟩⟩
      · exact ⟨_, exec_call_of_not_full nnn hsp, .inr ⟨rfl, hup'⟩⟩
    · have hk : ¬ s.anyKey = true := State.not_anyKey hup
      rw [exec_ldVxK_of_not_anyKey x hk] at hs
      cases hs
      exact ⟨_, exec_ldVxK_of_not_anyKey x hk, .inr ⟨rfl, hup'⟩⟩
  · refine ⟨_, exec_withHidden hi hs s.stack k, .inr ⟨?_, hup'⟩⟩
    rw [(exec_sp_stack hi hs).2]

theorem simulation_lastKeyAgrees (k : Key) : Simulation (LastKeyAgrees k) := by
  have same : ∀ {s t : State}, LastKeyAgrees k s t → t = s.withHidden t.stack t.lastKey := by
    rintro s _ (rfl | ⟨rfl, -⟩) <;> rfl
  refine ⟨same, cycle_simulates same ?_ ?_ LastKeyAgrees.exec, ?_, ?_⟩
  · rintro s _ pc (rfl | ⟨rfl, hup⟩)
    · exact .inl rfl
    · exact .inr ⟨rfl, hup⟩
  · rintro s _ cause info (rfl | ⟨rfl, hup⟩)
    · exact .inl rfl
    · exact .inr ⟨rfl, hup⟩
  · rintro f s _ hf (rfl | ⟨rfl, hup⟩)
    · exact .inl rfl
    · cases hf
      case keyDown j => exact .inl rfl
      case keyUp j =>
        refine .inr ⟨rfl, fun j' => ?_⟩
        rw [keyUp_keys, get_set_key, hup, ite_self]
      all_goals exact .inr ⟨rfl, hup⟩
  · rintro s t program h
    by_cases hlen : program.length ≤ romMax
    · have hparams : t.params = s.params := (congrArg State.params (same h) :)
      have hdraws : t.draws = s.draws := (congrArg State.draws (same h) :)
      have hsch : t.schedule = s.schedule := (congrArg State.schedule (same h) :)
      rw [load_of_le hlen, load_of_le hlen, hparams, hdraws, hsch]
      exact .inl rfl
    · rwa [load_of_gt (not_le.1 hlen), load_of_gt (not_le.1 hlen)]

end

/-- Settles O58: every kind of move keeps the states equal, or leaves no key down and `lastKey` as it was in each. -/
theorem lastKeyIsUnobservableWithNoKeyDown : Obligations.LastKeyIsUnobservableWithNoKeyDown := by
  intro s s' k hup hs
  exact (simulation_lastKeyAgrees k).step (.inr ⟨rfl, hup⟩) hs

end Sys2Proof.Machine

namespace Sys2Proof.Machine

open Sys2Proof.Config

/-! ## Whole-machine rules: reset and load (10_state.md R24, 70_reset_and_hazards.md R200, R201) -/

section
variable (p : Params)

theorem State.v_resetWith (r : Reg) : (State.resetWith p).v r = 0 := Vector.getElem_replicate r.isLt

theorem State.get_keys_resetWith (k : Key) : (State.resetWith p).keys.get k = false := Vector.getElem_replicate k.isLt

theorem State.cell_resetWith (y x : Nat) : (State.resetWith p).fb.cell y x = false := Framebuffer.cell_allOff y x

theorem Memory.unlisted_fontBase_add {j : Nat} (h : j < 80) :
    Memory.unlisted p (p.fontBase + j) = p.font.getD j 0 := by
  rw [Memory.unlisted, if_pos ⟨Nat.le_add_right _ _, Nat.add_lt_add_left h _⟩, Nat.add_sub_cancel_left]

theorem Memory.unlisted_outside_font {a : Nat} (h : a < p.fontBase ∨ p.fontBase + 80 ≤ a) :
    Memory.unlisted p a = 0 :=
  if_neg fun hin => by
    rw [fontBytes] at hin
    omega

end

/-- Settles O42: the fields of the reset state, and its memory, which lists nothing, by the reset content. -/
theorem resetStateIsAsTabled : Obligations.ResetStateIsAsTabled :=
  ⟨rfl, fun _ => Memory.unlisted_fontBase_add Params.default, fun _ => Memory.unlisted_outside_font Params.default,
    State.v_resetWith Params.default, rfl, rfl, rfl, rfl, State.get_keys_resetWith Params.default,
    fun y x _ _ => State.cell_resetWith Params.default y x, rfl, rfl, rfl, rfl, rfl⟩

/-- A step takes the first scheduled move (R181, log 2). -/
theorem step_schedule_cons (s : State) (m : Move) (rest : List Move) :
    step { s with schedule := m :: rest } = applyMove m { s with schedule := rest } := step_scheduled rfl

/-- Settles O54: a load that fits stores the program over the reset content, a longer one is an error. -/
theorem loadPlacesTheProgramOrFails : Obligations.LoadPlacesTheProgramOrFails := by
  intro s program rest
  refine ⟨fun hlen => ?_, fun hlen => ⟨if_pos hlen, ?_⟩⟩
  · have hstep : step { s with schedule := .load program :: rest } = .next
        ({ State.resetWith s.params with draws := s.draws, schedule := rest }.storeBytes progBase program) :=
      congrArg _ (load_of_le (s := { s with schedule := rest }) hlen)
    refine ⟨_, hstep, fun k hk => ?_, fun a ha => State.byteAt_storeBytes_outside _ program ha, rfl,
      State.v_resetWith s.params, rfl, rfl, rfl, rfl, State.get_keys_resetWith s.params,
      fun y x _ _ => State.cell_resetWith s.params y x, rfl, rfl, rfl, rfl, rfl, rfl, rfl⟩
    exact State.byteAt_storeBytes_inside _ Memory.wf_nil 0x200 program (by rw [memSize]; omega) k hk
  · exact congrArg _ (load_of_gt (s := { s with schedule := rest }) hlen)

/-! ## Whole-machine rules: halted, paused, keys, ports (60_exceptions.md R171 to R185) -/

theorem not_running_of_fault {s : State} (h : s.fault ≠ .none) : s.running = false :=
  Bool.eq_false_iff.2 fun hr => h (running_iff.1 hr).1

theorem not_running_of_paused {s : State} (h : s.paused = true) : s.running = false :=
  Bool.eq_false_iff.2 fun hr => Bool.false_ne_true ((running_iff.1 hr).2.symm.trans h)

/-- No move but a load changes the latches or `pc` of a machine that does not run. -/
theorem applyMove_keeps_latches {m : Move} {s t : State} (hr : s.running = false) (hm : ∀ program, m ≠ .load program)
    (h : applyMove m s = .next t) : t.fault = s.fault ∧ t.faultInfo = s.faultInfo ∧ t.pc = s.pc := by
  cases m
  case cycle =>
    rw [applyMove_cycle_of_not_running hr] at h
    cases h
    exact ⟨rfl, rfl, rfl⟩
  case tick =>
    rw [applyMove_tick_of_not_running hr] at h
    cases h
    exact ⟨rfl, rfl, rfl⟩
  case advance e =>
    rw [applyMove] at h
    by_cases he : e < 0
    · rw [advance_of_neg he] at h
      cases h
    · rw [advance_of_not_running hr (not_lt.1 he)] at h
      cases h
      exact ⟨rfl, rfl, rfl⟩
  case load program => exact absurd rfl (hm program)
  case keyDown | keyUp | togglePause =>
    cases h
    exact ⟨rfl, rfl, rfl⟩

/-- Settles O47: a halted machine does not run, so its cycles, ticks and advances do nothing. -/
theorem haltedMachineOnlyLoadRevives : Obligations.HaltedMachineOnlyLoadRevives := by
  intro s rest hf
  have hr : State.running { s with schedule := rest } = false := not_running_of_fault hf
  refine ⟨fun h => ?_, applyMove_cycle_of_not_running hr, applyMove_tick_of_not_running hr,
    fun e => advance_of_not_running hr, fun m t h hm =>
      applyMove_keeps_latches (s := { s with schedule := rest }) hr hm h⟩
  rw [step_unscheduled h]
  exact if_neg hf

/-- Settles O48: a paused machine does not run, and the toggle is its own inverse. -/
theorem pausedMachineWaits : Obligations.PausedMachineWaits := by
  intro s rest hp
  have hr : State.running { s with schedule := rest } = false := not_running_of_paused hp
  refine ⟨fun hf h => ?_, applyMove_cycle_of_not_running hr, applyMove_tick_of_not_running hr,
    fun e => advance_of_not_running hr, ?_, ?_⟩
  · rw [step_unscheduled h, coreTurn, if_pos hf, if_pos hp]
  · exact congrArg (fun b => (.next { s with schedule := rest, paused := b } : Result)) (congrArg not hp)
  · exact congrArg (fun b => (.next { s with schedule := rest, paused := b } : Result)) hp.symm

/-- Settles O49: the event writes one key latch, and the others are as they were. -/
theorem keyEventsSetOneLatch : Obligations.KeyEventsSetOneLatch := by
  intro s k rest
  refine ⟨⟨_, step_schedule_cons s _ rest, ?_, fun j hj => ?_, rfl, rfl⟩,
    ⟨_, step_schedule_cons s _ rest, ?_, fun j hj => ?_, rfl⟩⟩
  · rw [keyDown_keys, get_set_key, if_pos rfl]
  · rw [keyDown_keys, get_set_key, if_neg hj]
  · rw [keyUp_keys, get_set_key, if_pos rfl]
  · rw [keyUp_keys, get_set_key, if_neg hj]

/-- Settles O56: the ports answer fields of the state, the cause by its code. -/
theorem portsShowTheLatches : Obligations.PortsShowTheLatches := by
  intro s
  refine ⟨rfl, rfl, rfl, ?_⟩
  unfold readFault
  cases s.fault <;> rfl

/-! ## Whole-machine rules: ticks and advances (60_exceptions.md R179, R180) -/

theorem toNat_decrement (t : Byte) : (decrement t).toNat = t.toNat - 1 := by
  unfold decrement
  split
  · subst t
    rfl
  · rename_i ht
    have hpos : t.toNat ≠ 0 := fun h => ht (BitVec.eq_of_toNat_eq h)
    exact BitVec.toNat_sub_of_le (BitVec.le_def.2 (Nat.one_le_iff_ne_zero.2 hpos))

theorem toNat_ticks (n : Nat) (s : State) :
    (ticks n s).dt.toNat = s.dt.toNat - n ∧ (ticks n s).st.toNat = s.st.toNat - n := by
  induction n generalizing s with
  | zero => exact ⟨rfl, rfl⟩
  | succ n ih =>
    obtain ⟨hdt, hst⟩ := ih (tick s)
    rw [ticks, hdt, hst, tick_dt, tick_st, toNat_decrement, toNat_decrement]
    omega

/-- Settles O50: by induction on the ticks, each of which lowers both timers by one, clamped. -/
theorem ticksLowerTheTimersClamped : Obligations.TicksLowerTheTimersClamped := by
  refine ⟨fun n s => ?_, fun s rest hr h => ?_⟩
  · obtain ⟨hdt, hst⟩ := toNat_ticks n s
    exact ⟨hdt, hst, ticks_keeps n s⟩
  · rw [step_scheduled h]
    exact applyMove_tick_of_running (s := { s with schedule := rest }) hr

section
variable {s t : State} {e a b : ℚ} {n m : Nat}

/-- An advance whose totals are `n` ticks and `m` cycles with the fractions `a` and `b` (R180). -/
theorem advance_of_totals (hr : s.running = true) (he : 0 ≤ e)
    (hn : s.tickTotal e = n + a) (ha0 : 0 ≤ a) (ha1 : a < 1)
    (hm : s.cycleTotal e = m + b) (hb0 : 0 ≤ b) (hb1 : b < 1) :
    advance e s = cycles m (ticks n { s with tickAcc := a, cycleAcc := b }) := by
  rw [advance_of_running hr he, State.withResiduals, wholePeriods_eq hn ha0 ha1, wholePeriods_eq hm hb0 hb1, hn, hm,
    add_sub_cancel_left, add_sub_cancel_left]

/-- The residuals that an advance of a running machine leaves (R180). -/
theorem advance_residuals (hr : s.running = true) (he : 0 ≤ e) (h : advance e s = .next t) :
    t.tickAcc = s.tickTotal e - wholePeriods (s.tickTotal e) ∧
    t.cycleAcc = s.cycleTotal e - wholePeriods (s.cycleTotal e) ∧ t.params = s.params := by
  rw [advance_of_running hr he] at h
  rw [cycles_keeps h, ticks_keeps]
  exact ⟨rfl, rfl, rfl⟩

end

theorem cycles_succ_of_next {s t : State} (m : Nat) (hf : s.fault = .none) (h : cycle s = .next t) :
    cycles (m + 1) s = cycles m t := by
  rw [cycles, if_pos hf, h]

theorem cycles_of_fault {s : State} (m : Nat) (hf : s.fault ≠ .none) : cycles m s = .next s := by
  cases m with
  | zero => rfl
  | succ m => exact if_neg hf

/-- Settles O51: the whole periods of the totals are the ticks and the cycles, their fractions the residuals. -/
theorem advanceDoesTicksThenCycles : Obligations.AdvanceDoesTicksThenCycles := by
  refine ⟨?_, fun _ => rfl, fun m _ _ => cycles_succ_of_next m, fun m _ => cycles_of_fault m⟩
  intro s e n m a b hr he hn ha0 ha1 hm hb0 hb1
  refine ⟨advance_of_totals hr he hn ha0 ha1 hm hb0 hb1, fun rest => ?_⟩
  exact advance_of_totals (s := { s with schedule := rest }) hr he hn ha0 ha1 hm hb0 hb1

/-- Settles O52: the time of `k` cycle periods, times the rate, is `k` with no fraction. -/
theorem exactPeriodsLeaveNoResidual : Obligations.ExactPeriodsLeaveNoResidual := by
  intro s k hr hhz htick hcycle
  have he : (0 : ℚ) ≤ k * 1000 / s.params.cycleHz := by positivity
  obtain ⟨ha0, ha1⟩ := wholePeriods_residual (State.tickTotal_nonneg htick he)
  have hn : ∀ total : ℚ, total = wholePeriods total + (total - wholePeriods total) := fun total => by ring
  have hm : s.cycleTotal (k * 1000 / s.params.cycleHz) = k + 0 := by
    rw [State.cycleTotal, hcycle]
    field_simp
    ring
  exact ⟨_, _, ha0, ha1, hn _, advance_of_totals hr he (hn _) ha0 ha1 hm (le_refl 0) one_pos⟩

/-- A time `d` counted after the residual of `first`: no period is lost or counted twice, and the residual is that of
the whole. -/
theorem wholePeriods_split {first second whole d : ℚ} (h0 : 0 ≤ first) (hd : 0 ≤ d)
    (hsecond : second = first - wholePeriods first + d) (hwhole : whole = first + d) :
    wholePeriods first + wholePeriods second = wholePeriods whole ∧
    second - wholePeriods second = whole - wholePeriods whole := by
  have hsum : wholePeriods first + wholePeriods second = wholePeriods whole := by
    rw [hsecond, hwhole]
    exact wholePeriods_add h0 hd
  refine ⟨hsum, ?_⟩
  rw [← hsum, hwhole, Nat.cast_add]
  linarith

/-- Settles O53: the residual of the first advance goes into the total of the second. -/
theorem splitAdvancesLoseNoTime : Obligations.SplitAdvancesLoseNoTime := by
  intro s t u w x y hs ht hhz htick hcycle hx hy hst htu hsw
  obtain ⟨htt, htc, htp⟩ := advance_residuals hs hx hst
  obtain ⟨hut, huc, -⟩ := advance_residuals ht hy htu
  obtain ⟨hwt, hwc, -⟩ := advance_residuals hs (add_nonneg hx hy) hsw
  obtain ⟨hticks, htickAcc⟩ := wholePeriods_split (second := t.tickTotal y) (whole := s.tickTotal (x + y))
    (d := y * tickHz / 1000) (State.tickTotal_nonneg htick hx) (by unfold tickHz; positivity)
    (by rw [State.tickTotal, htt]) (by unfold State.tickTotal; ring)
  obtain ⟨hcycles, hcycleAcc⟩ := wholePeriods_split (second := t.cycleTotal y) (whole := s.cycleTotal (x + y))
    (d := y * s.params.cycleHz / 1000) (State.cycleTotal_nonneg hcycle hhz hx) (by positivity)
    (by rw [State.cycleTotal, htc, htp]) (by unfold State.cycleTotal; ring)
  refine ⟨?_, ?_, hcycles, hticks⟩
  · rw [hut, hwt, htickAcc]
  · rw [huc, hwc, hcycleAcc]

/-! ## Whole-machine rules: a step faults exactly when one of its cycles does (60_exceptions.md R170, R171) -/

section
variable {s t u : State} {cause : FaultCause} {info : Word}

theorem faultOf_ne_none {i : Instr} (h : faultOf i s = some (cause, info)) : cause ≠ .none := by
  cases i
  case ret | call | drw | ldB | stRegs | ldRegs =>
    simp only [faultOf, rangeFault] at h
    split at h
    · cases h
      decide
    · cases h
  all_goals cases h

theorem faultOfCycle_ne_none (h : faultOfCycle u = some (cause, info)) : cause ≠ .none := by
  unfold faultOfCycle at h
  split at h
  · cases h
    decide
  · exact faultOf_ne_none h

/-- A cycle that meets a fault changes the two latches alone. -/
theorem cycle_of_faultOfCycle (h : faultOfCycle u = some (cause, info)) :
    cycle u = .next { u with fault := cause, faultInfo := info } := by
  unfold faultOfCycle at h
  split at h
  · cases h
    exact cycle_of_ge ‹_›
  · have hexec := exec_faultsAs (decodeWord (u.wordAt u.pc.toNat)) { u with pc := u.pc + 2 }
    rw [h] at hexec
    rw [cycle_of_le (by omega), ← State.faulted_of_advanced]
    exact hexec

/-- A cycle that meets no fault leaves the latch alone. -/
theorem fault_of_cycle (h : faultOfCycle u = none) (hc : cycle u = .next t) : t.fault = u.fault := by
  unfold faultOfCycle at h
  split at h
  · cases h
  · have hexec := exec_faultsAs (decodeWord (u.wordAt u.pc.toNat)) { u with pc := u.pc + 2 }
    rw [h] at hexec
    obtain ⟨t', ht', hfault, -⟩ := hexec
    rw [cycle_of_le (by omega), ht'] at hc
    cases hc
    exact hfault

theorem faultOfCycle_of_fault (hu : u.fault = .none) (hc : cycle u = .next t) (ht : t.fault ≠ .none) :
    faultOfCycle u = some (t.fault, t.faultInfo) := by
  cases h : faultOfCycle u with
  | none => exact absurd ((fault_of_cycle h hc).trans hu) ht
  | some f =>
    obtain ⟨cause, info⟩ := f
    rw [cycle_of_faultOfCycle h] at hc
    cases hc
    rfl

/-- The step from `s` to `t` is a run of `m` cycles from `s₀`, and performs those of them that begin with the latch
clear. -/
structure RunsCycles (s t : State) (m : Nat) (s₀ : State) : Prop where
  start : s₀.fault = .none
  ends : cycles m s₀ = .next t
  performs_iff : ∀ u, s.performsCycleAt u ↔ u.fault = .none ∧ ∃ k < m, cycles k s₀ = .next u

/-- A fault of one of the cycles ends the run: the others are abandoned (R171). -/
theorem RunsCycles.eq_of_faultOfCycle {m : Nat} {s₀ : State} (h : RunsCycles s t m s₀) (hu : s.performsCycleAt u)
    (hf : faultOfCycle u = some (cause, info)) : t = { u with fault := cause, faultInfo := info } := by
  obtain ⟨hclear, k, hk, hrun⟩ := (h.performs_iff u).1 hu
  obtain ⟨j, rfl⟩ : ∃ j, m = k + (j + 1) := ⟨m - k - 1, by omega⟩
  have hend := h.ends
  rw [cycles_split (j + 1) hrun, cycles_succ_of_next j hclear (cycle_of_faultOfCycle hf),
    cycles_of_fault j (faultOfCycle_ne_none hf)] at hend
  cases hend
  rfl

/-- A latch that is set at the end was set by one of the cycles. -/
theorem RunsCycles.exists_faultOfCycle {m : Nat} {s₀ : State} (h : RunsCycles s t m s₀) (ht : t.fault ≠ .none) :
    ∃ u, s.performsCycleAt u ∧ faultOfCycle u = some (t.fault, t.faultInfo) := by
  obtain ⟨k, hk, u, hrun, hu, hc⟩ := cycles_fault_cases h.start h.ends ht
  exact ⟨u, (h.performs_iff u).2 ⟨hu, k, hk, hrun⟩, faultOfCycle_of_fault hu hc ht⟩

/-- A step that performs no cycle, and leaves the latch clear. -/
theorem runsCycles_zero (ht : t.fault = .none) (h : ∀ u, ¬ s.performsCycleAt u) : RunsCycles s t 0 t where
  start := ht
  ends := rfl
  performs_iff u := ⟨fun hu => absurd hu (h u), fun ⟨_, k, hk, _⟩ => absurd hk (Nat.not_lt_zero k)⟩

/-- A step that performs one cycle, which begins in `u`. -/
theorem runsCycles_one (hu : u.fault = .none) (hc : cycle u = .next t) (h : ∀ w, s.performsCycleAt w ↔ w = u) :
    RunsCycles s t 1 u where
  start := hu
  ends := cycles_succ_of_next 0 hu hc
  performs_iff w := by
    rw [h]
    constructor
    · rintro rfl
      exact ⟨hu, 0, Nat.one_pos, rfl⟩
    · rintro ⟨-, k, hk, hrun⟩
      obtain rfl : k = 0 := by omega
      cases hrun
      rfl

theorem not_performsCycleAt_of_not_running (hr : s.running = false) : ¬ s.performsCycleAt u := fun h =>
  Bool.false_ne_true (hr.symm.trans h.1)

/-- No scheduled move but a cycle and an advance performs a cycle. -/
theorem not_performsCycleAt_of_schedule {m : Move} {rest : List Move} (hs : s.schedule = m :: rest)
    (hcycle : m ≠ .cycle) (hadvance : ∀ e, m ≠ .advance e) : ¬ s.performsCycleAt u := by
  unfold State.performsCycleAt
  rw [hs]
  cases m
  case cycle => exact absurd rfl hcycle
  case advance e => exact absurd rfl (hadvance e)
  all_goals exact fun h => h.2.2

theorem performsCycleAt_nil_iff (hr : s.running = true) (hs : s.schedule = []) : s.performsCycleAt u ↔ u = s := by
  unfold State.performsCycleAt
  rw [hs]
  exact ⟨fun h => h.2.2, fun h => ⟨hr, h ▸ (running_iff.1 hr).1, h⟩⟩

theorem performsCycleAt_cycle_iff {rest : List Move} (hr : s.running = true) (hs : s.schedule = .cycle :: rest) :
    s.performsCycleAt u ↔ u = { s with schedule := rest } := by
  unfold State.performsCycleAt
  rw [hs]
  exact ⟨fun h => h.2.2, fun h => ⟨hr, h ▸ (running_iff.1 hr).1, h⟩⟩

theorem performsCycleAt_advance_iff {e : ℚ} {rest : List Move} (hr : s.running = true)
    (hs : s.schedule = .advance e :: rest) :
    s.performsCycleAt u ↔ u.fault = .none ∧ ∃ k < wholePeriods (s.cycleTotal e),
      cycles k (ticks (wholePeriods (s.tickTotal e)) (State.withResiduals { s with schedule := rest } e)) =
        .next u := by
  unfold State.performsCycleAt
  rw [hs]
  exact ⟨fun h => h.2, fun h => ⟨hr, h⟩⟩

end

theorem load_fault {s : State} (program : List Byte) (hf : s.fault = .none) : (load program s).fault = .none := by
  by_cases hlen : program.length ≤ romMax
  · rw [load_of_le hlen]
    rfl
  · rwa [load_of_gt (not_le.1 hlen)]

theorem applyMove_fault_of_not_running {m : Move} {s t : State} (hr : s.running = false) (hf : s.fault = .none)
    (h : applyMove m s = .next t) : t.fault = .none := by
  by_cases hm : ∃ program, m = .load program
  · obtain ⟨program, rfl⟩ := hm
    cases h
    exact load_fault program hf
  · exact (applyMove_keeps_latches hr (fun program hp => hm ⟨program, hp⟩) h).1.trans hf

theorem exists_runsCycles_of_not_running {s : State} (hr : s.running = false) (hf : s.fault = .none)
    (hneg : ∀ e rest, s.schedule = .advance e :: rest → 0 ≤ e) :
    ∃ t m s₀, step s = .next t ∧ RunsCycles s t m s₀ := by
  have hzero : ∀ t : State, t.fault = .none → RunsCycles s t 0 t := fun t ht =>
    runsCycles_zero ht fun u => not_performsCycleAt_of_not_running hr
  cases hsch : s.schedule with
  | nil =>
    have hp : s.paused = true := by simpa [State.running, hf] using hr
    refine ⟨s, 0, s, ?_, hzero s hf⟩
    rw [step_unscheduled hsch, coreTurn, if_pos hf, if_pos hp]
  | cons m rest =>
    have hm : ∀ e, m = .advance e → 0 ≤ e := fun e he => hneg e rest (he ▸ hsch)
    obtain ⟨t, ht⟩ := applyMove_next hm { s with schedule := rest }
    refine ⟨t, 0, t, (step_scheduled hsch).trans ht, hzero t ?_⟩
    exact applyMove_fault_of_not_running (s := { s with schedule := rest }) hr hf ht

/-- A running machine's step is one cycle, the cycles of an advance, or a move that performs none. -/
theorem exists_runsCycles_of_running {s : State} (hr : s.running = true)
    (hneg : ∀ e rest, s.schedule = .advance e :: rest → 0 ≤ e) :
    ∃ t m s₀, step s = .next t ∧ RunsCycles s t m s₀ := by
  have hf : s.fault = .none := (running_iff.1 hr).1
  cases hsch : s.schedule with
  | nil =>
    obtain ⟨t, ht⟩ := cycle_next s
    exact ⟨t, 1, s, (step_of_unscheduled_running hsch hr).trans ht,
      runsCycles_one hf ht fun u => performsCycleAt_nil_iff hr hsch⟩
  | cons m rest =>
    cases m
    case cycle =>
      obtain ⟨t, ht⟩ := cycle_next { s with schedule := rest }
      exact ⟨t, 1, _, (step_of_cycle_running hsch hr).trans ht,
        runsCycles_one (u := { s with schedule := rest }) hf ht fun u => performsCycleAt_cycle_iff hr hsch⟩
    case advance e =>
      have he : 0 ≤ e := hneg e rest hsch
      obtain ⟨t, ht⟩ := advance_next he { s with schedule := rest }
      refine ⟨t, _, _, (step_scheduled hsch).trans ht, ⟨?_, ?_, fun u => performsCycleAt_advance_iff hr hsch⟩⟩
      · rw [ticks_keeps]
        exact hf
      · rw [← ht, advance_of_running (s := { s with schedule := rest }) hr he]
        rfl
    case tick =>
      exact ⟨_, 0, _, (step_scheduled hsch).trans (applyMove_tick_of_running hr),
        runsCycles_zero hf fun u => not_performsCycleAt_of_schedule hsch nofun nofun⟩
    case keyDown | keyUp | togglePause =>
      exact ⟨_, 0, _, step_scheduled hsch,
        runsCycles_zero hf fun u => not_performsCycleAt_of_schedule hsch nofun nofun⟩
    case load program =>
      exact ⟨_, 0, _, step_scheduled hsch,
        runsCycles_zero (load_fault program hf) fun u => not_performsCycleAt_of_schedule hsch nofun nofun⟩

/-- Settles O55: the step is a run of cycles, which a fault ends with the latches set. -/
theorem runningStepsGoOnAndFaultAsTabled : Obligations.RunningStepsGoOnAndFaultAsTabled := by
  intro s hf hneg
  have hex : ∃ t m s₀, step s = .next t ∧ RunsCycles s t m s₀ := by
    cases hr : s.running
    · exact exists_runsCycles_of_not_running hr hf hneg
    · exact exists_runsCycles_of_running hr hneg
  obtain ⟨t, m, s₀, hstep, hruns⟩ := hex
  exact ⟨t, hstep, fun u cause info => hruns.eq_of_faultOfCycle, hruns.exists_faultOfCycle⟩

end Sys2Proof.Machine
